-- ==== Sys2Proof/Word.lean ====
section
/-! DEFINITION. The word types of the state block (00_scope.md R7, R10) and the closed sets of
names its commands use: the six registers, the eight flags, and the two causes of the one fault. -/

namespace Sys2Proof

/-- A byte: `DATA_W` = 8 bits, the width of A, X, Y, S, P and of one memory location (00_scope.md R7). -/
abbrev Byte := BitVec 8

/-- A 16-bit value on the data port (30_encoding.md R50). -/
abbrev Word := BitVec 16

/-- An address: `ADDR_W` = 16 bits (00_scope.md R7). -/
abbrev Addr := BitVec 16

/-- One command word of the request port, `cmd[47:0]` (30_encoding.md R48). -/
abbrev CommandWord := BitVec 48

/-- The registers of the register file (10_state.md R13). -/
inductive Reg where
  | pc | a | x | y | s | p
deriving DecidableEq, Repr

/-- The fields of `P` (10_state.md R20): CARRY, ZERO, INTERRUPT_DISABLE, DECIMAL, BREAK, UNUSED,
OVERFLOW, NEGATIVE. -/
inductive Flag where
  | c | z | i | d | b | u | v | n
deriving DecidableEq, Repr

/-- The causes of `IllegalCommand` (60_exceptions.md R83). -/
inductive Cause where
  /-- `OP` names no command (30_encoding.md R56). -/
  | badOp
  /-- `SEL` names no register, or no flag, of the command (30_encoding.md R57). -/
  | badSel
deriving DecidableEq, Repr

end Sys2Proof
end

