-- ==== Sys2Proof/Syntax.lean ====
section
/-! DEFINITION. The commands of the state block: one constructor per row of spec/opcode_table.json
(30_encoding.md R51). A constructor holds the fields its command reads (30_encoding.md R54), a
`SEL` field as the register or flag it names (R52, R53), and `DATA` whole: that an 8-bit
destination takes `DATA[7:0]` (R60) is part of the meaning (log 7). -/

namespace Sys2Proof

/-- One legal command. -/
inductive Instr where
  /-- `MEM_RD $aaaa` (41_memory_ops.md R72). -/
  | memRd (addr : Addr)
  /-- `MEM_WR $aaaa, #$dd` (41_memory_ops.md R73). -/
  | memWr (addr : Addr) (data : Word)
  /-- `PUSH_B $ss, #$dd` (42_stack_engine.md R76). -/
  | pushB (spv : Byte) (data : Word)
  /-- `PUSH_W $ss, #$dddd` (42_stack_engine.md R77). -/
  | pushW (spv : Byte) (data : Word)
  /-- `PULL_B $ss` (42_stack_engine.md R78). -/
  | pullB (spv : Byte)
  /-- `PULL_W $ss` (42_stack_engine.md R79). -/
  | pullW (spv : Byte)
  /-- `REG_RD r` (40_register_ops.md R64). -/
  | regRd (r : Reg)
  /-- `REG_WR r, #$v` (40_register_ops.md R65). -/
  | regWr (r : Reg) (data : Word)
  /-- `FLAG_TST f` (40_register_ops.md R66). -/
  | flagTst (f : Flag)
  /-- `FLAG_SET f` (40_register_ops.md R67). -/
  | flagSet (f : Flag)
  /-- `FLAG_CLR f` (40_register_ops.md R68). -/
  | flagClr (f : Flag)
  /-- `DIAG_RD` (41_memory_ops.md R74). -/
  | diagRd
deriving DecidableEq, Repr

end Sys2Proof
end

