-- ==== Sys2Proof/WellFormed.lean ====
section
/-! DEFINITION. The one command format `CMD48` as its five raw fields, and which field values are a
legal command (30_encoding.md R49, R56, R57). Every term of `Instr` is well formed: its operand
types admit exactly the `SEL` values of R52 and R53, and R58 leaves nothing else to check. So the
checks stand here, on the raw fields, which do admit illegal values. -/

namespace Sys2Proof

/-- The five fields of a `CMD48` command word (30_encoding.md R49). -/
structure Fields where
  op   : BitVec 4
  sel  : BitVec 4
  spv  : Byte
  addr : Addr
  data : Word
deriving DecidableEq, Repr

/-- `OP` is none of the four illegal codes (30_encoding.md R56). -/
def Fields.opLegal (f : Fields) : Bool :=
  f.op != 0x0#4 && f.op != 0xD#4 && f.op != 0xE#4 && f.op != 0xF#4

/-- For `REG_RD` (0x7) and `REG_WR` (0x8), `SEL` is at most 0x5 (30_encoding.md R57). -/
def Fields.regSelLegal (f : Fields) : Bool :=
  !(f.op == 0x7#4 || f.op == 0x8#4) || decide (f.sel.toNat ≤ 0x5)

/-- For `FLAG_TST`, `FLAG_SET` and `FLAG_CLR` (0x9 to 0xB), `SEL` is at most 0x7 (30_encoding.md R57). -/
def Fields.flagSelLegal (f : Fields) : Bool :=
  !(f.op == 0x9#4 || f.op == 0xA#4 || f.op == 0xB#4) || decide (f.sel.toNat ≤ 0x7)

/-- The fields are those of a legal command; every other word is illegal (30_encoding.md R58). -/
def Fields.wf (f : Fields) : Bool :=
  f.opLegal && f.regSelLegal && f.flagSelLegal

end Sys2Proof
end

