-- ==== Sys2Proof/Decode.lean ====
section
/-! DEFINITION. Decoding a 48-bit command word, total on every word and rejecting by cause
(30_encoding.md R61), the encoder written from the same tables, the opcode table of
spec/opcode_table.json as rows, and which bits of a word its command reads (R54). -/

namespace Sys2Proof

/-- The fields of a command word, each taken straight from its bits (30_encoding.md R49, R50). -/
def Fields.ofWord (w : CommandWord) : Fields :=
  { op   := w.extractLsb' 44 4
    sel  := w.extractLsb' 40 4
    spv  := w.extractLsb' 32 8
    addr := w.extractLsb' 16 16
    data := w.extractLsb' 0 16 }

/-- The command word that holds the fields (30_encoding.md R49). -/
def Fields.toWord (f : Fields) : CommandWord :=
  f.op.setWidth 48 <<< 44 ||| f.sel.setWidth 48 <<< 40 ||| f.spv.setWidth 48 <<< 32 |||
    f.addr.setWidth 48 <<< 16 ||| f.data.setWidth 48

/-- The register a `SEL` value selects, none for the illegal codes 0x6..0xF (30_encoding.md R52). -/
def regOfSel (sel : BitVec 4) : Option Reg :=
  match sel.toNat with
  | 0x0 => some .pc
  | 0x1 => some .a
  | 0x2 => some .x
  | 0x3 => some .y
  | 0x4 => some .s
  | 0x5 => some .p
  | _   => none

/-- The `SEL` value of a register (30_encoding.md R52). -/
def selOfReg : Reg → BitVec 4
  | .pc => 0x0#4
  | .a  => 0x1#4
  | .x  => 0x2#4
  | .y  => 0x3#4
  | .s  => 0x4#4
  | .p  => 0x5#4

/-- The flag a `SEL` value selects, none for the illegal codes 0x8..0xF (30_encoding.md R53). -/
def flagOfSel (sel : BitVec 4) : Option Flag :=
  match sel.toNat with
  | 0x0 => some .c
  | 0x1 => some .z
  | 0x2 => some .i
  | 0x3 => some .d
  | 0x4 => some .b
  | 0x5 => some .u
  | 0x6 => some .v
  | 0x7 => some .n
  | _   => none

/-- The `SEL` value of a flag (30_encoding.md R53). -/
def selOfFlag : Flag → BitVec 4
  | .c => 0x0#4
  | .z => 0x1#4
  | .i => 0x2#4
  | .d => 0x3#4
  | .b => 0x4#4
  | .u => 0x5#4
  | .v => 0x6#4
  | .n => 0x7#4

/-- A command whose `SEL` names a register, `BAD_SEL` where it names none (30_encoding.md R57). -/
def withReg (sel : BitVec 4) (k : Reg → Instr) : Except Cause Instr :=
  match regOfSel sel with
  | some r => .ok (k r)
  | none   => .error .badSel

/-- A command whose `SEL` names a flag, `BAD_SEL` where it names none (30_encoding.md R57). -/
def withFlag (sel : BitVec 4) (k : Flag → Instr) : Except Cause Instr :=
  match flagOfSel sel with
  | some f => .ok (k f)
  | none   => .error .badSel

/-- The command of the fields: `OP` first, because what `SEL` means depends on it (30_encoding.md R51,
R61; 60_exceptions.md R85). -/
def decodeFields (f : Fields) : Except Cause Instr :=
  match f.op.toNat with
  | 0x1 => .ok (.memRd f.addr)
  | 0x2 => .ok (.memWr f.addr f.data)
  | 0x3 => .ok (.pushB f.spv f.data)
  | 0x4 => .ok (.pushW f.spv f.data)
  | 0x5 => .ok (.pullB f.spv)
  | 0x6 => .ok (.pullW f.spv)
  | 0x7 => withReg f.sel .regRd
  | 0x8 => withReg f.sel fun r => .regWr r f.data
  | 0x9 => withFlag f.sel .flagTst
  | 0xA => withFlag f.sel .flagSet
  | 0xB => withFlag f.sel .flagClr
  | 0xC => .ok .diagRd
  | _   => .error .badOp

/-- Decoding a command word: its command, or the cause that makes it illegal (30_encoding.md R61). -/
def decode (w : CommandWord) : Except Cause Instr :=
  decodeFields (Fields.ofWord w)

/-- The fields of a command's word; every field it does not name is 0 (30_encoding.md R51 to R54, R62). -/
def fieldsOf : Instr → Fields
  | .memRd addr      => { op := 0x1#4, sel := 0#4, spv := 0#8, addr := addr, data := 0#16 }
  | .memWr addr data => { op := 0x2#4, sel := 0#4, spv := 0#8, addr := addr, data := data }
  | .pushB spv data  => { op := 0x3#4, sel := 0#4, spv := spv, addr := 0#16, data := data }
  | .pushW spv data  => { op := 0x4#4, sel := 0#4, spv := spv, addr := 0#16, data := data }
  | .pullB spv       => { op := 0x5#4, sel := 0#4, spv := spv, addr := 0#16, data := 0#16 }
  | .pullW spv       => { op := 0x6#4, sel := 0#4, spv := spv, addr := 0#16, data := 0#16 }
  | .regRd r         => { op := 0x7#4, sel := selOfReg r, spv := 0#8, addr := 0#16, data := 0#16 }
  | .regWr r data    => { op := 0x8#4, sel := selOfReg r, spv := 0#8, addr := 0#16, data := data }
  | .flagTst f       => { op := 0x9#4, sel := selOfFlag f, spv := 0#8, addr := 0#16, data := 0#16 }
  | .flagSet f       => { op := 0xA#4, sel := selOfFlag f, spv := 0#8, addr := 0#16, data := 0#16 }
  | .flagClr f       => { op := 0xB#4, sel := selOfFlag f, spv := 0#8, addr := 0#16, data := 0#16 }
  | .diagRd          => { op := 0xC#4, sel := 0#4, spv := 0#8, addr := 0#16, data := 0#16 }

/-- The command word of a command. -/
def encode (i : Instr) : CommandWord :=
  (fieldsOf i).toWord

/-- The mnemonic of a command (30_encoding.md R51). -/
def Instr.mnemonic : Instr → String
  | .memRd _   => "MEM_RD"
  | .memWr _ _ => "MEM_WR"
  | .pushB _ _ => "PUSH_B"
  | .pushW _ _ => "PUSH_W"
  | .pullB _   => "PULL_B"
  | .pullW _   => "PULL_W"
  | .regRd _   => "REG_RD"
  | .regWr _ _ => "REG_WR"
  | .flagTst _ => "FLAG_TST"
  | .flagSet _ => "FLAG_SET"
  | .flagClr _ => "FLAG_CLR"
  | .diagRd    => "DIAG_RD"

/-- One row of spec/opcode_table.json: a word is the row's when the bits under `mask` are `bits`
(its "match"). -/
structure OpcodeRow where
  mnemonic : String
  bits     : CommandWord
  mask     : CommandWord
deriving DecidableEq, Repr

/-- spec/opcode_table.json, row by row. -/
def opcodeTable : List OpcodeRow :=
  [ ⟨"MEM_RD",   0x100000000000#48, 0xF00000000000#48⟩,
    ⟨"MEM_WR",   0x200000000000#48, 0xF00000000000#48⟩,
    ⟨"PUSH_B",   0x300000000000#48, 0xF00000000000#48⟩,
    ⟨"PUSH_W",   0x400000000000#48, 0xF00000000000#48⟩,
    ⟨"PULL_B",   0x500000000000#48, 0xF00000000000#48⟩,
    ⟨"PULL_W",   0x600000000000#48, 0xF00000000000#48⟩,
    ⟨"REG_RD",   0x700000000000#48, 0xF00000000000#48⟩,
    ⟨"REG_WR",   0x800000000000#48, 0xF00000000000#48⟩,
    ⟨"FLAG_TST", 0x900000000000#48, 0xF00000000000#48⟩,
    ⟨"FLAG_SET", 0xA00000000000#48, 0xF00000000000#48⟩,
    ⟨"FLAG_CLR", 0xB00000000000#48, 0xF00000000000#48⟩,
    ⟨"DIAG_RD",  0xC00000000000#48, 0xF00000000000#48⟩ ]

/-- The bits of a word that its command reads, `OP` among them: every other bit is ignored
(30_encoding.md R54, R55, R60). An illegal word is known by `OP`, and `SEL` where `OP` gives it a
meaning. -/
def readMask (w : CommandWord) : CommandWord :=
  match (w.extractLsb' 44 4).toNat with
  | 0x1 => 0xF000FFFF0000#48
  | 0x2 => 0xF000FFFF00FF#48
  | 0x3 => 0xF0FF000000FF#48
  | 0x4 => 0xF0FF0000FFFF#48
  | 0x5 => 0xF0FF00000000#48
  | 0x6 => 0xF0FF00000000#48
  | 0x7 => 0xFF0000000000#48
  | 0x8 => if w.extractLsb' 40 4 = 0x0#4 then 0xFF000000FFFF#48 else 0xFF00000000FF#48
  | 0x9 => 0xFF0000000000#48
  | 0xA => 0xFF0000000000#48
  | 0xB => 0xFF0000000000#48
  | _   => 0xF00000000000#48

/-- The command word whose low `nbits` bits are those of `w`, the others 0 (the numbering of
spec/opcode_table.json: a word of its table is the whole 48-bit command; log 11). -/
def wordOfTableBits (nbits w : Nat) : CommandWord :=
  BitVec.ofNat 48 (w % 2 ^ nbits)

/-- What the decoder reads from a word numbered as spec/opcode_table.json numbers it, none where it
refuses (log 11). -/
def decodeTableWord (nbits w : Nat) : Option Instr :=
  match decode (wordOfTableBits nbits w) with
  | .ok i    => some i
  | .error _ => none

end Sys2Proof
end

