-- ==== Sys2Proof/Machine/Flags.lean ====
section
/-! DEFINITION. The bit fields of the flags byte `P` (10_state.md R20 to R23): a flag's bit, and the
test, set and clear of 40_register_ops.md R66 to R68. No command computes a flag from a result
(10_state.md R23), so these are all the flag computations there are. -/

namespace Sys2Proof.Machine

/-- The bit number of a flag in `P` (10_state.md R20). -/
def flagBit : Flag → Nat
  | .c => 0
  | .z => 1
  | .i => 2
  | .d => 3
  | .b => 4
  | .u => 5
  | .v => 6
  | .n => 7

/-- `1 << i` for the flag's bit `i` (00_scope.md R10). -/
def flagMask (f : Flag) : Byte := 1#8 <<< flagBit f

/-- `P[i]` (40_register_ops.md R66). -/
def testFlag (f : Flag) (p : Byte) : Bool := p.getLsbD (flagBit f)

/-- `v | 0x20`: bit 5 is hardwired to 1 where `P` is written (10_state.md R21). -/
def forceUnused (v : Byte) : Byte := v ||| 0x20#8

/-- `P | (1 << i)` (40_register_ops.md R67). -/
def setFlag (f : Flag) (p : Byte) : Byte := p ||| flagMask f

/-- `(P & ~(1 << i)) | 0x20` (40_register_ops.md R68). -/
def clearFlag (f : Flag) (p : Byte) : Byte := forceUnused (p &&& ~~~flagMask f)

end Sys2Proof.Machine
end

