-- ==== Sys2Proof/Config.lean ====
section
/-! DEFINITION. What is fixed for one state block: the parameter table of 00_scope.md R7, and the
one parameter the spec leaves open (00_scope.md R8). -/

namespace Sys2Proof.Config

/-- `MEM_SIZE`, the number of byte locations (00_scope.md R7). -/
def memSize : Nat := 0x10000

/-- `STACK_BASE`, the first address of the stack page (00_scope.md R7). -/
def stackBase : Addr := 0x0100#16

/-- `ROM_START`, the first ROM address (00_scope.md R7). -/
def romStart : Nat := 0x8000

/-- `ROM_FILL`, the sentinel fill byte (00_scope.md R7). -/
def romFill : Byte := 0xFE#8

/-- `IRQ_VEC_LO`, the address of the BRK/IRQ vector's low byte (00_scope.md R7). -/
def irqVecLo : Addr := 0xFFFE#16

/-- `IRQ_VEC_HI`, the address of the BRK/IRQ vector's high byte (00_scope.md R7). -/
def irqVecHi : Addr := 0xFFFF#16

/-- `PC_RESET` (00_scope.md R7). -/
def pcReset : Addr := 0x8000#16

/-- `A_RESET` (00_scope.md R7). -/
def aReset : Byte := 0x00#8

/-- `X_RESET` (00_scope.md R7). -/
def xReset : Byte := 0x00#8

/-- `Y_RESET` (00_scope.md R7). -/
def yReset : Byte := 0x00#8

/-- `S_RESET` (00_scope.md R7). -/
def sReset : Byte := 0xFD#8

/-- `P_RESET` (00_scope.md R7). -/
def pReset : Byte := 0x20#8

/-- `PUSH_SETS_DID_WRITE`: does a stack push set `did_write`? The spec leaves it open (00_scope.md R8,
92_eei_decisions.md D13), so it has no body and a claim about it holds for both values
(DESIGN CHOICE of the form, safe; log 4). -/
opaque pushSetsDidWrite : Bool

end Sys2Proof.Config
end

