-- ==== Sys2Proof/Machine/Operands.lean ====
section
/-! DEFINITION. How a command's operands and results are cut and joined: bytes of the data port
(30_encoding.md R50, R60), the slot of a stack pointer and the pointer's arithmetic
(42_stack_engine.md R75). -/

namespace Sys2Proof.Machine

/-- `zext_16` of a byte (00_scope.md R10). -/
def zext16 (b : Byte) : Word := b.setWidth 16

/-- `data[7:0]` (30_encoding.md R50). -/
def loByte (w : Word) : Byte := w.extractLsb' 0 8

/-- `data[15:8]` (30_encoding.md R50). -/
def hiByte (w : Word) : Byte := w.extractLsb' 8 8

/-- `{hi, lo}`, `hi` in the high bits (00_scope.md R10). -/
def joinBytes (hi lo : Byte) : Word := hi.setWidth 16 <<< 8 ||| lo.setWidth 16

/-- `zext_16` of one bit: 0x0001 or 0x0000 (40_register_ops.md R66, 41_memory_ops.md R74). -/
def zextBit (b : Bool) : Word := if b then 0x0001#16 else 0x0000#16

/-- `StackAddr(sp) = 0x0100 + sp` (42_stack_engine.md R75). -/
def stackAddr (sp : Byte) : Addr := Config.stackBase + zext16 sp

/-- `(sp - 1) mod 256` (42_stack_engine.md R75). -/
def spDown (sp : Byte) : Byte := sp - 1#8

/-- `(sp + 1) mod 256` (42_stack_engine.md R75). -/
def spUp (sp : Byte) : Byte := sp + 1#8

end Sys2Proof.Machine
end

