-- ==== Sys2Proof/Machine/State.lean ====
section
/-! DEFINITION. The state of the block, `st = (rf, mem, did_write)` (00_scope.md R11; 10_state.md R13, R25,
R26, R28), with its request and response ports (30_encoding.md R48) beside it, the reasons a step can
stop, and the state at power-on (70_reset_and_hazards.md R93). -/

namespace Sys2Proof.Machine

/-- The register file: one record of six registers (10_state.md R13). -/
structure RegFile where
  /-- `program_counter` (10_state.md R14). -/
  pc : Addr
  /-- `accumulator` (10_state.md R15). -/
  a  : Byte
  /-- The first index register (10_state.md R16). -/
  x  : Byte
  /-- The second index register (10_state.md R17). -/
  y  : Byte
  /-- The stack pointer (10_state.md R18). -/
  s  : Byte
  /-- The flags byte, numbered N V U B D I Z C from bit 7 down (10_state.md R19, R20). -/
  p  : Byte
deriving DecidableEq, Repr

/-- The response port (30_encoding.md R48). -/
structure Response where
  /-- `rsp.data[15:0]`, the read data. -/
  data : Word
  /-- `rsp.sp[7:0]`, the updated stack pointer. -/
  sp   : Byte
  /-- `rsp.err`, set when the command was illegal. -/
  err  : Bool
deriving DecidableEq, Repr

/-- The memory array of 10_state.md R25, as the bytes that differ from their power-on content,
addresses strictly rising (log 6). `Memory.wf` of Machine/Ops.lean is that form. -/
abbrev Memory := List Host.Cell

/-- The state block and its two ports. -/
structure State where
  /-- The register file (10_state.md R13). -/
  rf       : RegFile
  /-- The memory array (10_state.md R25). -/
  mem      : Memory
  /-- The did-write flag (10_state.md R26). -/
  didWrite : Bool
  /-- The command words the caller still has to present on the request port, oldest first
  (30_encoding.md R48, 00_scope.md R9; the model's own field, DESIGN CHOICE, log 1). -/
  cmds     : List CommandWord
  /-- What the response port shows: the response to the last command, none before the first
  (30_encoding.md R48; the model's own field, DESIGN CHOICE, log 3). -/
  rsp      : Option Response
deriving DecidableEq, Repr

/-- Why a step stops with a fault. -/
inductive Fault where
  /-- `IllegalCommand(cause)`, the one fault of the block: raised by `step` on a command word that names
  no command (60_exceptions.md R83). Safe: the spec has a model treat it as a fault (log 5). -/
  | illegalCommand (cause : Cause)
deriving DecidableEq, Repr

/-- Why a step refuses. No meaning of this model refuses. -/
inductive Refusal where
  /-- The command has no meaning yet: raised by an arm of `exec`, by name. No arm does. Safe: it
  stops where the hardware goes on. -/
  | notModelled (mnemonic : String)
deriving DecidableEq, Repr

/-- The register file at power-on (10_state.md R14 to R19). -/
def RegFile.reset : RegFile :=
  { pc := Config.pcReset, a := Config.aReset, x := Config.xReset, y := Config.yReset,
    s := Config.sReset, p := Config.pReset }

/-- Power-on construction (70_reset_and_hazards.md R93): no memory byte differs from its power-on
content, nothing has written, and no command has been presented or answered. -/
def State.reset : State :=
  { rf := RegFile.reset, mem := [], didWrite := false, cmds := [], rsp := none }

end Sys2Proof.Machine
end

