-- ==== Sys2Proof/Machine/Ops.lean ====
section
/-! DEFINITION. The named operations the meanings share: one byte of memory (00_scope.md R10, 20_memory.md
R41), the registers, the did-write flag, the byte push and byte pull (42_stack_engine.md R75),
answering a command (30_encoding.md R59), and raising the one fault (60_exceptions.md R83). The
block has no trap entry and no trap return (60_exceptions.md R87), so raising the fault is all
there is of taking an exception. -/

namespace Sys2Proof.Machine

/-! ## Memory -/

/-- The power-on content of an address, which is what an address nothing has written reads as
(10_state.md R27; 0xFFFF is filled, 90_conflicts.md C1; log 6). -/
def powerOnByte (a : Nat) : Byte :=
  if Config.romStart ≤ a then Config.romFill else 0x00#8

/-- One byte of the memory array: the listed byte, else the power-on content. -/
def Memory.read : Memory → Nat → Byte
  | [], a => powerOnByte a
  | (k, b) :: m, a => if k = a then b else Memory.read m a

/-- Put a listed byte in front of the entries above it; a byte equal to the power-on content is not
listed. -/
def Memory.put (a : Nat) (v : Byte) (m : Memory) : Memory :=
  if v = powerOnByte a then m else (a, v) :: m

/-- Store one byte, keeping the canonical form. -/
def Memory.write : Memory → Nat → Byte → Memory
  | [], a, v => Memory.put a v []
  | (k, b) :: m, a, v =>
    if a < k then Memory.put a v ((k, b) :: m)
    else if a = k then Memory.put a v m
    else (k, b) :: Memory.write m a v

/-- The canonical form from address `lo` on: addresses strictly rising inside the address space, and
no entry equal to its power-on content (log 6). -/
def Memory.wfFrom : Nat → Memory → Bool
  | _, [] => true
  | lo, (k, b) :: m =>
    decide (lo ≤ k) && decide (k < Config.memSize) && decide (b ≠ powerOnByte k) &&
      Memory.wfFrom (k + 1) m

/-- The canonical form of the memory. -/
def Memory.wf (m : Memory) : Bool := Memory.wfFrom 0 m

/-- `MemRead(addr, 1)`: the stored byte, with no side effect (00_scope.md R10, 20_memory.md R42). -/
def memRead (a : Addr) (s : State) : Byte := Memory.read s.mem a.toNat

/-- `MemWrite(addr, 1, v)`: exactly the addressed byte, at any address (00_scope.md R10, 20_memory.md
R32, R42). -/
def memWrite (a : Addr) (v : Byte) (s : State) : State :=
  { s with mem := Memory.write s.mem a.toNat v }

/-- `did_write` becomes 1 if `b`; it never becomes 0 (10_state.md R26). -/
def raiseDidWrite (b : Bool) (s : State) : State := { s with didWrite := s.didWrite || b }

/-! ## Registers -/

/-- `reg[r]`, `zext_16` for the 8-bit registers (40_register_ops.md R64). -/
def readReg (r : Reg) (s : State) : Word :=
  match r with
  | .pc => s.rf.pc
  | .a  => zext16 s.rf.a
  | .x  => zext16 s.rf.x
  | .y  => zext16 s.rf.y
  | .s  => zext16 s.rf.s
  | .p  => zext16 s.rf.p

/-- Write `P`; the callers pass a byte whose bit 5 they have dealt with as their rule says. -/
def setP (v : Byte) (s : State) : State := { s with rf := { s.rf with p := v } }

/-- `reg[r] <- data`: 16 bits for `PC`, `data[7:0]` otherwise, bit 5 of `P` forced (40_register_ops.md
R65; log 8). -/
def writeReg (r : Reg) (data : Word) (s : State) : State :=
  match r with
  | .pc => { s with rf := { s.rf with pc := data } }
  | .a  => { s with rf := { s.rf with a := loByte data } }
  | .x  => { s with rf := { s.rf with x := loByte data } }
  | .y  => { s with rf := { s.rf with y := loByte data } }
  | .s  => { s with rf := { s.rf with s := loByte data } }
  | .p  => setP (forceUnused (loByte data)) s

/-! ## The stack engine -/

/-- `PushByte(sp, v)`: store at the slot of `sp`, then step the pointer down; `sets` is the parameter
`PUSH_SETS_DID_WRITE`, an argument as 00_scope.md R8 asks (42_stack_engine.md R75). The new pointer
and the state after. -/
def pushByte (sets : Bool) (sp : Byte) (v : Byte) (s : State) : Byte × State :=
  (spDown sp, raiseDidWrite sets (memWrite (stackAddr sp) v s))

/-- `PullByte(sp)`: step the pointer up, then read its slot, which keeps its byte (42_stack_engine.md
R75; 92_eei_decisions.md D15). The new pointer and the byte. -/
def pullByte (sp : Byte) (s : State) : Byte × Byte :=
  (spUp sp, memRead (stackAddr (spUp sp)) s)

/-! ## Answering -/

/-- The response every command starts from: all fields 0 (30_encoding.md R59, R61). -/
def Response.zero : Response := { data := 0#16, sp := 0#8, err := false }

/-- A command completes: its response stands on the port (30_encoding.md R48). -/
def complete (r : Response) (s : State) : Host.Outcome State Fault Refusal :=
  .next { s with rsp := some r }

/-- The code of a cause in `rsp.data` (60_exceptions.md R83). -/
def causeCode : Cause → Word
  | .badOp  => 0x0001#16
  | .badSel => 0x0002#16

/-- The response to an illegal word (60_exceptions.md R83). -/
def illegalResponse (c : Cause) : Response := { data := causeCode c, sp := 0#8, err := true }

/-- `raise IllegalCommand(cause)`: the run is faulted, no state follows (00_scope.md R10, 60_exceptions.md
R83; log 5). -/
def raiseIllegal (c : Cause) : Host.Outcome State Fault Refusal :=
  .fault (.illegalCommand c)

end Sys2Proof.Machine
end

