-- ==== Sys2Proof/Machine/MemoryCommands.lean ====
section
/-! DEFINITION. The memory commands `MEM_RD`, `MEM_WR` and `DIAG_RD` (41_memory_ops.md). -/

namespace Sys2Proof.Machine

/-- `MEM_RD` (41_memory_ops.md R72). -/
def execMemRd (addr : Addr) (s : State) : Host.Outcome State Fault Refusal :=
  complete { Response.zero with data := zext16 (memRead addr s) } s

/-- `MEM_WR` (41_memory_ops.md R73). -/
def execMemWr (addr : Addr) (data : Word) (s : State) : Host.Outcome State Fault Refusal :=
  complete Response.zero (raiseDidWrite true (memWrite addr (loByte data) s))

/-- `DIAG_RD` (41_memory_ops.md R74). -/
def execDiagRd (s : State) : Host.Outcome State Fault Refusal :=
  complete { Response.zero with data := zextBit s.didWrite } s

end Sys2Proof.Machine
end

