-- ==== Sys2Proof/Machine/RegisterCommands.lean ====
section
/-! DEFINITION. The register-file commands `REG_RD`, `REG_WR`, `FLAG_TST`, `FLAG_SET` and `FLAG_CLR`
(40_register_ops.md). -/

namespace Sys2Proof.Machine

/-- `REG_RD` (40_register_ops.md R64). -/
def execRegRd (r : Reg) (s : State) : Host.Outcome State Fault Refusal :=
  complete { Response.zero with data := readReg r s } s

/-- `REG_WR` (40_register_ops.md R65). -/
def execRegWr (r : Reg) (data : Word) (s : State) : Host.Outcome State Fault Refusal :=
  complete Response.zero (writeReg r data s)

/-- `FLAG_TST` (40_register_ops.md R66). -/
def execFlagTst (f : Flag) (s : State) : Host.Outcome State Fault Refusal :=
  complete { Response.zero with data := zextBit (testFlag f s.rf.p) } s

/-- `FLAG_SET` (40_register_ops.md R67). -/
def execFlagSet (f : Flag) (s : State) : Host.Outcome State Fault Refusal :=
  complete Response.zero (setP (setFlag f s.rf.p) s)

/-- `FLAG_CLR` (40_register_ops.md R68). -/
def execFlagClr (f : Flag) (s : State) : Host.Outcome State Fault Refusal :=
  complete Response.zero (setP (clearFlag f s.rf.p) s)

end Sys2Proof.Machine
end

