-- ==== Sys2Proof/Machine/StackCommands.lean ====
section
/-! DEFINITION. The stack commands `PUSH_B`, `PUSH_W`, `PULL_B` and `PULL_W` (42_stack_engine.md). The
pointer enters as `SPV` and leaves as `rsp.sp`; register `S` takes no part (R80). -/

namespace Sys2Proof.Machine

/-- `PUSH_B` (42_stack_engine.md R76). -/
def execPushB (spv : Byte) (data : Word) (s : State) : Host.Outcome State Fault Refusal :=
  let (sp, t) := pushByte Config.pushSetsDidWrite spv (loByte data) s
  complete { Response.zero with sp := sp } t

/-- `PUSH_W`: the high byte first (42_stack_engine.md R77). -/
def execPushW (spv : Byte) (data : Word) (s : State) : Host.Outcome State Fault Refusal :=
  let (sp₁, t₁) := pushByte Config.pushSetsDidWrite spv (hiByte data) s
  let (sp₂, t₂) := pushByte Config.pushSetsDidWrite sp₁ (loByte data) t₁
  complete { Response.zero with sp := sp₂ } t₂

/-- `PULL_B` (42_stack_engine.md R78). -/
def execPullB (spv : Byte) (s : State) : Host.Outcome State Fault Refusal :=
  let (sp, b) := pullByte spv s
  complete { Response.zero with data := zext16 b, sp := sp } s

/-- `PULL_W`: the low byte first (42_stack_engine.md R79). -/
def execPullW (spv : Byte) (s : State) : Host.Outcome State Fault Refusal :=
  let (sp₁, lo) := pullByte spv s
  let (sp₂, hi) := pullByte sp₁ s
  complete { Response.zero with data := joinBytes hi lo, sp := sp₂ } s

end Sys2Proof.Machine
end

