-- ==== Sys2Proof/Machine/Dispatch.lean ====
section
/-! DEFINITION. One arm per command of spec/opcode_table.json (30_encoding.md R51). -/

namespace Sys2Proof.Machine

def exec (i : Instr) (s : State) : Host.Outcome State Fault Refusal :=
  match i with
  | .memRd addr => Sys2Proof.Machine.execMemRd addr s
  | .memWr addr data => Sys2Proof.Machine.execMemWr addr data s
  | .pushB spv data => Sys2Proof.Machine.execPushB spv data s
  | .pushW spv data => Sys2Proof.Machine.execPushW spv data s
  | .pullB spv => Sys2Proof.Machine.execPullB spv s
  | .pullW spv => Sys2Proof.Machine.execPullW spv s
  | .regRd r => Sys2Proof.Machine.execRegRd r s
  | .regWr r data => Sys2Proof.Machine.execRegWr r data s
  | .flagTst f => Sys2Proof.Machine.execFlagTst f s
  | .flagSet f => Sys2Proof.Machine.execFlagSet f s
  | .flagClr f => Sys2Proof.Machine.execFlagClr f s
  | .diagRd => Sys2Proof.Machine.execDiagRd s

end Sys2Proof.Machine
end

