-- ==== Sys2Proof/Machine/Step.lean ====
section
/-! DEFINITION. One step: the block takes the next command word of the request port, decodes it and
runs it whole (00_scope.md R9, 20_memory.md R43, 30_encoding.md R61). -/

namespace Sys2Proof.Machine

/-- The block takes the oldest pending command word. With none pending nothing happens: the block
has no step of its own (00_scope.md R9) and no halt state (70_reset_and_hazards.md R100) (DESIGN
CHOICE, safe; log 2). An illegal word faults the run (60_exceptions.md R83). -/
def step (s : State) : Host.Outcome State Fault Refusal :=
  match s.cmds with
  | [] => .next s
  | w :: rest =>
    match decode w with
    | .ok i    => exec i { s with cmds := rest }
    | .error c => raiseIllegal c

/-- `s` with one more command word, presented before those pending: the next step takes it (log 1). -/
def State.withFetchWord (s : State) (nbits w : Nat) : State :=
  { s with cmds := wordOfTableBits nbits w :: s.cmds }

end Sys2Proof.Machine
end

