-- ==== Sys2Proof/Machine/AddressMap.lean ====
section
/-! DEFINITION. The address-space partition (20_memory.md R30) and the BRK/IRQ vector (R33). They name
ranges of the one memory array and change no command's behaviour (R31). -/

namespace Sys2Proof.Machine

/-- The four regions of the partition (20_memory.md R30). -/
inductive Region where
  | zeroPage | stack | ram | rom
deriving DecidableEq, Repr

/-- The first and the last address of a region, both inside it (20_memory.md R30). -/
def Region.range : Region → Nat × Nat
  | .zeroPage => (0x0000, 0x00FF)
  | .stack    => (0x0100, 0x01FF)
  | .ram      => (0x0200, 0x7FFF)
  | .rom      => (0x8000, 0xFFFF)

/-- The address lies in the region. -/
def Region.contains (r : Region) (a : Addr) : Bool :=
  decide (r.range.1 ≤ a.toNat) && decide (a.toNat ≤ r.range.2)

/-- The BRK/IRQ vector: low byte at 0xFFFE, high byte at 0xFFFF (20_memory.md R33). The block itself never
reads it. -/
def irqVector (s : State) : Word :=
  joinBytes (memRead Config.irqVecHi s) (memRead Config.irqVecLo s)

end Sys2Proof.Machine
end

