-- ==== Sys2Proof/Machine/Diagnostics.lean ====
section
/-! DEFINITION. The diagnostic functions over the register file: equality, inequality and the display
string (40_register_ops.md R69 to R71). They are functions over the state, not commands. -/

namespace Sys2Proof.Machine

/-- `RfEq`: all six registers are equal (40_register_ops.md R69). -/
def rfEq (f g : RegFile) : Bool :=
  f.pc == g.pc && f.a == g.a && f.x == g.x && f.y == g.y && f.s == g.s && f.p == g.p

/-- `RfNe`: the negation of `RfEq` (40_register_ops.md R70, 90_conflicts.md C3). -/
def rfNe (f g : RegFile) : Bool := !rfEq f g

/-- One upper-case hex digit, of the low four bits of `n`. -/
def hexDigit (n : Nat) : Char :=
  match n % 16 with
  | 0 => '0' | 1 => '1' | 2 => '2' | 3 => '3' | 4 => '4' | 5 => '5' | 6 => '6' | 7 => '7'
  | 8 => '8' | 9 => '9' | 10 => 'A' | 11 => 'B' | 12 => 'C' | 13 => 'D' | 14 => 'E' | _ => 'F'

/-- A byte as two hex digits, zero-padded (40_register_ops.md R71). -/
def hexByte (b : Byte) : List Char := [hexDigit (b.toNat / 16), hexDigit b.toNat]

/-- A 16-bit value as four hex digits, zero-padded (40_register_ops.md R71). -/
def hexWord (w : Word) : List Char :=
  [hexDigit (w.toNat / 4096), hexDigit (w.toNat / 256), hexDigit (w.toNat / 16), hexDigit w.toNat]

/-- The characters of the display string: two spaces between fields, none around them, no newline
(40_register_ops.md R71, 92_eei_decisions.md D20). -/
def rfFormatChars (f : RegFile) : List Char :=
  "PC: $".toList ++ hexWord f.pc ++ "  A: $".toList ++ hexByte f.a ++ "  X: $".toList ++ hexByte f.x ++
    "  Y: $".toList ++ hexByte f.y ++ "  S: $".toList ++ hexByte f.s ++ "  P: $".toList ++ hexByte f.p

/-- `RfFormat` (40_register_ops.md R71). -/
def rfFormat (f : RegFile) : String := String.ofList (rfFormatChars f)

end Sys2Proof.Machine
end

