-- ==== Sys2Proof/Machine/Port.lean ====
section
/-! DEFINITION. One transaction on the command port, `Exec(st, cmd) -> (st', rsp)` (00_scope.md R11,
30_encoding.md R48): total on every word and every state. Where `step` calls an illegal word's
response a fault, this gives the response itself (60_exceptions.md R83). -/

namespace Sys2Proof.Machine

/-- The block answers an illegal word: the error stands on the response port, and no register, no
memory byte and not `did_write` changes (60_exceptions.md R83). -/
def answerIllegal (c : Cause) (s : State) : State × Response :=
  ({ s with rsp := some (illegalResponse c) }, illegalResponse c)

/-- `Exec(st, cmd)`: the state after the command and the response (00_scope.md R11). No meaning faults or
refuses (60_exceptions.md R84), so the last arm answers for no command of this block. -/
def transact (w : CommandWord) (s : State) : State × Response :=
  match decode w with
  | .error c => answerIllegal c s
  | .ok i =>
    match exec i s with
    | .next t => (t, t.rsp.getD Response.zero)
    | .fault (.illegalCommand c) => answerIllegal c s
    | .refused _ => (s, Response.zero)

end Sys2Proof.Machine
end

