-- ==== Sys2Proof/Machine/Pseudo.lean ====
section
/-! DEFINITION. The four pseudo-commands, which use register `S` as the stack pointer: each is three
transactions, and the caller carries the values from one to the next (30_encoding.md R63; log 10). -/

namespace Sys2Proof.Machine

/-- A pseudo-command (30_encoding.md R63). -/
inductive Pseudo where
  /-- `PUSHS_B #$dd`. -/
  | pushsB (data : Byte)
  /-- `PUSHS_W #$dddd`. -/
  | pushsW (data : Word)
  /-- `PULLS_B`. -/
  | pullsB
  /-- `PULLS_W`. -/
  | pullsW
deriving DecidableEq, Repr

/-- The first command of every expansion: `REG_RD S`. -/
def pseudoFirst : Instr := .regRd .s

/-- The second command, with `s` the `rsp.data` of the first. -/
def pseudoSecond (p : Pseudo) (s : Byte) : Instr :=
  match p with
  | .pushsB data => .pushB s (zext16 data)
  | .pushsW data => .pushW s data
  | .pullsB      => .pullB s
  | .pullsW      => .pullW s

/-- The third command, with `s'` the `rsp.sp` of the second: `REG_WR S`. -/
def pseudoThird (s' : Byte) : Instr := .regWr .s (zext16 s')

/-- The caller issues the three commands. The state after the third, and the response to the second:
the pulled byte or word is its `data`. -/
def runPseudo (p : Pseudo) (s : State) : State × Response :=
  let (s₁, r₁) := transact (encode pseudoFirst) s
  let (s₂, r₂) := transact (encode (pseudoSecond p (loByte r₁.data))) s₁
  let (s₃, _) := transact (encode (pseudoThird r₂.sp)) s₂
  (s₃, r₂)

end Sys2Proof.Machine
end

