-- ==== Sys2Proof/Machine/Assembler.lean ====
section
/-! DEFINITION. The assembler syntax of the commands and pseudo-commands (30_encoding.md R62, R63): a
line's spelling, and the reader of a line. The reader takes exactly the spellings of R62 and R63,
with the digits of the form and capitals (DESIGN CHOICE, log 9). -/

namespace Sys2Proof.Machine

/-- What a line of assembler text stands for. -/
inductive Line where
  | command (i : Instr)
  | pseudo (p : Pseudo)
deriving DecidableEq, Repr

/-- A register's name (30_encoding.md R62). -/
def regName : Reg → List Char
  | .pc => ['P', 'C']
  | .a  => ['A']
  | .x  => ['X']
  | .y  => ['Y']
  | .s  => ['S']
  | .p  => ['P']

/-- A flag's name (30_encoding.md R62). -/
def flagName : Flag → Char
  | .c => 'C'
  | .z => 'Z'
  | .i => 'I'
  | .d => 'D'
  | .b => 'B'
  | .u => 'U'
  | .v => 'V'
  | .n => 'N'

/-- The write data of `REG_WR`: four digits for `PC`, two otherwise (30_encoding.md R62). -/
def regData (r : Reg) (data : Word) : List Char :=
  if r = .pc then hexWord data else hexByte (loByte data)

/-- The spelling of a command (30_encoding.md R62). The form of an 8-bit destination shows `DATA[7:0]`
alone, and stands for the word whose `DATA[15:8]` is 0. -/
def spell : Instr → List Char
  | .memRd addr      => "MEM_RD $".toList ++ hexWord addr
  | .memWr addr data => "MEM_WR $".toList ++ hexWord addr ++ ", #$".toList ++ hexByte (loByte data)
  | .pushB spv data  => "PUSH_B $".toList ++ hexByte spv ++ ", #$".toList ++ hexByte (loByte data)
  | .pushW spv data  => "PUSH_W $".toList ++ hexByte spv ++ ", #$".toList ++ hexWord data
  | .pullB spv       => "PULL_B $".toList ++ hexByte spv
  | .pullW spv       => "PULL_W $".toList ++ hexByte spv
  | .regRd r         => "REG_RD ".toList ++ regName r
  | .regWr r data    => "REG_WR ".toList ++ regName r ++ ", #$".toList ++ regData r data
  | .flagTst f       => "FLAG_TST ".toList ++ [flagName f]
  | .flagSet f       => "FLAG_SET ".toList ++ [flagName f]
  | .flagClr f       => "FLAG_CLR ".toList ++ [flagName f]
  | .diagRd          => "DIAG_RD".toList

/-- The spelling of a pseudo-command (30_encoding.md R63). -/
def spellPseudo : Pseudo → List Char
  | .pushsB data => "PUSHS_B #$".toList ++ hexByte data
  | .pushsW data => "PUSHS_W #$".toList ++ hexWord data
  | .pullsB      => "PULLS_B".toList
  | .pullsW      => "PULLS_W".toList

/-- The value of an upper-case hex digit. -/
def hexValue (c : Char) : Option Nat :=
  if '0' ≤ c ∧ c ≤ '9' then some (c.toNat - '0'.toNat)
  else if 'A' ≤ c ∧ c ≤ 'F' then some (c.toNat - 'A'.toNat + 10)
  else none

/-- The rest of the text after a fixed beginning. -/
def skip : List Char → List Char → Option (List Char)
  | [], cs => some cs
  | _ :: _, [] => none
  | l :: ls, c :: cs => if l = c then skip ls cs else none

/-- Exactly `n` hex digits, high digit first, after the value `acc` of those before them; the value and
the rest of the text. -/
def takeHex : Nat → Nat → List Char → Option (Nat × List Char)
  | 0, acc, cs => some (acc, cs)
  | _ + 1, _, [] => none
  | n + 1, acc, c :: cs =>
    match hexValue c with
    | some d => takeHex n (acc * 16 + d) cs
    | none   => none

/-- Two hex digits. -/
def takeByte (cs : List Char) : Option (Byte × List Char) :=
  (takeHex 2 0 cs).map fun (v, rest) => (BitVec.ofNat 8 v, rest)

/-- Four hex digits. -/
def takeWord (cs : List Char) : Option (Word × List Char) :=
  (takeHex 4 0 cs).map fun (v, rest) => (BitVec.ofNat 16 v, rest)

/-- A value that the text must end after. -/
def atEnd {α : Type} : Option (α × List Char) → Option α
  | some (v, []) => some v
  | _ => none

/-- A register's name, and the rest of the text. -/
def takeReg : List Char → Option (Reg × List Char)
  | 'P' :: 'C' :: cs => some (.pc, cs)
  | 'A' :: cs => some (.a, cs)
  | 'X' :: cs => some (.x, cs)
  | 'Y' :: cs => some (.y, cs)
  | 'S' :: cs => some (.s, cs)
  | 'P' :: cs => some (.p, cs)
  | _ => none

/-- A flag's name, and the rest of the text. -/
def takeFlag : List Char → Option (Flag × List Char)
  | 'C' :: cs => some (.c, cs)
  | 'Z' :: cs => some (.z, cs)
  | 'I' :: cs => some (.i, cs)
  | 'D' :: cs => some (.d, cs)
  | 'B' :: cs => some (.b, cs)
  | 'U' :: cs => some (.u, cs)
  | 'V' :: cs => some (.v, cs)
  | 'N' :: cs => some (.n, cs)
  | _ => none

/-- Write data to the end of the text: `, #$` and then the digits the reader takes. -/
def writeData (take : List Char → Option (Word × List Char)) (cs : List Char) : Option Word :=
  (skip ", #$".toList cs).bind fun rest => atEnd (take rest)

/-- Two hex digits as write data: `DATA = 00dd`. -/
def takeByteData (cs : List Char) : Option (Word × List Char) :=
  (takeByte cs).map fun (v, rest) => (zext16 v, rest)

/-- The operands of `REG_WR`. -/
def readRegWr (cs : List Char) : Option Instr :=
  (takeReg cs).bind fun (r, rest) =>
    (writeData (if r = .pc then takeWord else takeByteData) rest).map fun v => .regWr r v

/-- Each beginning of a line, and the reader of the operands after it (30_encoding.md R62, R63). -/
def lineForms : List (List Char × (List Char → Option Line)) :=
  [ ("MEM_RD $".toList, fun cs => (atEnd (takeWord cs)).map fun a => .command (.memRd a)),
    ("MEM_WR $".toList, fun cs => (takeWord cs).bind fun (a, rest) =>
      (writeData takeByteData rest).map fun v => .command (.memWr a v)),
    ("PUSH_B $".toList, fun cs => (takeByte cs).bind fun (sp, rest) =>
      (writeData takeByteData rest).map fun v => .command (.pushB sp v)),
    ("PUSH_W $".toList, fun cs => (takeByte cs).bind fun (sp, rest) =>
      (writeData takeWord rest).map fun v => .command (.pushW sp v)),
    ("PULL_B $".toList, fun cs => (atEnd (takeByte cs)).map fun sp => .command (.pullB sp)),
    ("PULL_W $".toList, fun cs => (atEnd (takeByte cs)).map fun sp => .command (.pullW sp)),
    ("REG_RD ".toList, fun cs => (atEnd (takeReg cs)).map fun r => .command (.regRd r)),
    ("REG_WR ".toList, fun cs => (readRegWr cs).map .command),
    ("FLAG_TST ".toList, fun cs => (atEnd (takeFlag cs)).map fun f => .command (.flagTst f)),
    ("FLAG_SET ".toList, fun cs => (atEnd (takeFlag cs)).map fun f => .command (.flagSet f)),
    ("FLAG_CLR ".toList, fun cs => (atEnd (takeFlag cs)).map fun f => .command (.flagClr f)),
    ("DIAG_RD".toList, fun cs => if cs = [] then some (.command .diagRd) else none),
    ("PUSHS_B #$".toList, fun cs => (atEnd (takeByte cs)).map fun v => .pseudo (.pushsB v)),
    ("PUSHS_W #$".toList, fun cs => (atEnd (takeWord cs)).map fun v => .pseudo (.pushsW v)),
    ("PULLS_B".toList, fun cs => if cs = [] then some (.pseudo .pullsB) else none),
    ("PULLS_W".toList, fun cs => if cs = [] then some (.pseudo .pullsW) else none) ]

/-- The first form whose beginning the text has reads the rest of it. -/
def readWith : List (List Char × (List Char → Option Line)) → List Char → Option Line
  | [], _ => none
  | (start, read) :: forms, cs =>
    match skip start cs with
    | some rest => read rest
    | none      => readWith forms cs

/-- What a line of assembler text stands for, none where it has none of the forms. -/
def readLine (cs : List Char) : Option Line := readWith lineForms cs

/-- The command word of a line that spells one command (30_encoding.md R62). -/
def assemble (line : String) : Option CommandWord :=
  match readLine line.toList with
  | some (.command i) => some (encode i)
  | _ => none

end Sys2Proof.Machine
end

