-- ==== Sys2Proof/Safety.lean ====
section
/-! DEFINITION. The words statements are made of: the invariant of the block, what two states share,
legal words and runs, and what a sequence of commands has written (20_memory.md R44). -/

namespace Sys2Proof.Machine

/-- The invariant: the memory is in canonical form, and bit 5 of `P` is 1 (10_state.md R21). -/
def State.Inv (s : State) : Prop := s.mem.wf = true ∧ testFlag .u s.rf.p = true

/-- Every address outside `stored` reads in `t` as it does in `s`. -/
def SameMemoryExcept (stored : List Addr) (s t : State) : Prop :=
  ∀ a : Addr, a ∉ stored → memRead a t = memRead a s

/-- Every register but those of `written` reads in `t` as it does in `s`. -/
def SameRegistersExcept (written : List Reg) (s t : State) : Prop :=
  ∀ r : Reg, r ∉ written → readReg r t = readReg r s

/-- The two states agree on the block's own state: every register, every byte of memory and the
did-write flag (00_scope.md R11). -/
def SameBlock (s t : State) : Prop :=
  t.rf = s.rf ∧ SameMemoryExcept [] s t ∧ t.didWrite = s.didWrite

/-- A word is a legal command (30_encoding.md R58). -/
def LegalWord (w : CommandWord) : Prop := (Fields.ofWord w).wf = true

/-- The cause of the first illegal word of a list, none where every word is legal. -/
def firstCause : List CommandWord → Option Cause
  | [] => none
  | w :: ws =>
    match decode w with
    | .ok _    => firstCause ws
    | .error c => some c

/-- The state in which the caller is about to issue `ws` and then nothing. -/
def State.issuing (s : State) (ws : List CommandWord) : State := { s with cmds := ws }

/-- `k` steps of the block from `s`. -/
def run (k : Nat) (s : State) : Host.Outcome State Fault Refusal :=
  Host.Core.run Sys2Proof.core k s

/-- The bytes a command stores, in order: its own fields give the addresses (41_memory_ops.md R73,
42_stack_engine.md R76, R77, R80). -/
def byteWrites : Instr → List (Addr × Byte)
  | .memWr addr data => [(addr, loByte data)]
  | .pushB spv data  => [(stackAddr spv, loByte data)]
  | .pushW spv data  => [(stackAddr spv, hiByte data), (stackAddr (spDown spv), loByte data)]
  | .memRd _ | .pullB _ | .pullW _ | .regRd _ | .regWr _ _ | .flagTst _ | .flagSet _ | .flagClr _
  | .diagRd => []

/-- The byte of the last write to an address, `old` where none of the writes is to it. -/
def lastWrite (a : Addr) (old : Byte) (ws : List (Addr × Byte)) : Byte :=
  ws.foldl (fun b w => if w.1 = a then w.2 else b) old

/-- A command sets `did_write`: `MEM_WR` always, a push as `PUSH_SETS_DID_WRITE` says, no other
(10_state.md R26). -/
def setsDidWrite : Instr → Bool
  | .memWr _ _ => true
  | .pushB _ _ | .pushW _ _ => Config.pushSetsDidWrite
  | .memRd _ | .pullB _ | .pullW _ | .regRd _ | .regWr _ _ | .flagTst _ | .flagSet _ | .flagClr _
  | .diagRd => false

/-- The commands of the stack engine (42_stack_engine.md R76 to R79). -/
def isStackCommand : Instr → Bool
  | .pushB _ _ | .pushW _ _ | .pullB _ | .pullW _ => true
  | .memRd _ | .memWr _ _ | .regRd _ | .regWr _ _ | .flagTst _ | .flagSet _ | .flagClr _ | .diagRd => false

end Sys2Proof.Machine
end

