-- ==== Sys2Proof/Certificates/Slice0/Obligations.lean ====
section
/-! DEFINITION. The statements about the state block. Each docstring names the rule of spec/ it
formalises. `Config.pushSetsDidWrite` has no body, so every statement that names it holds for both
values of the open parameter (00_scope.md R8). -/

open Sys2Proof Sys2Proof.Machine

/-! ## Command words -/

/-- One word of each command, written out from spec/95_test_vectors.md and the layout of
30_encoding.md R49, decodes to the command it stands for, and words of each illegal kind are
rejected by cause. -/
def Obligations.WrittenOutWordsDecode : Prop :=
  decode 0x1000FFFE0000#48 = .ok (.memRd 0xFFFE#16) ∧
  decode 0x20000010ABCD#48 = .ok (.memWr 0x0010#16 0xABCD#16) ∧
  decode 0x30FD0000AB42#48 = .ok (.pushB 0xFD#8 0xAB42#16) ∧
  decode 0x40FD00001234#48 = .ok (.pushW 0xFD#8 0x1234#16) ∧
  decode 0x50FC00000000#48 = .ok (.pullB 0xFC#8) ∧
  decode 0x60FB00000000#48 = .ok (.pullW 0xFB#8) ∧
  decode 0x740000000000#48 = .ok (.regRd .s) ∧
  decode 0x80000000C000#48 = .ok (.regWr .pc 0xC000#16) ∧
  decode 0x950000000000#48 = .ok (.flagTst .u) ∧
  decode 0xA70000000000#48 = .ok (.flagSet .n) ∧
  decode 0xB20000000000#48 = .ok (.flagClr .i) ∧
  decode 0xCFFFFFFFFFFF#48 = .ok .diagRd ∧
  decode 0xFFFFFFFFFFFF#48 = .error .badOp ∧
  decode 0x760000000000#48 = .error .badSel ∧
  decode 0xB80000000000#48 = .error .badSel

/-- Every command's word decodes to that command, whatever its operands (30_encoding.md R49 to R53, R61). -/
def Obligations.DecodeOfEncode : Prop :=
  ∀ i : Instr, decode (encode i) = .ok i

/-- 30_encoding.md R52, R53 and 10_state.md R20: the registers and flags that the sixteen `SEL` values
select, and that a flag's `SEL` value is the number of its bit in `P`. -/
def Obligations.SelectCodesNameRegistersAndFlags : Prop :=
  regOfSel 0x0#4 = some .pc ∧ regOfSel 0x1#4 = some .a ∧ regOfSel 0x2#4 = some .x ∧
  regOfSel 0x3#4 = some .y ∧ regOfSel 0x4#4 = some .s ∧ regOfSel 0x5#4 = some .p ∧
  (∀ sel : BitVec 4, 0x6 ≤ sel.toNat → regOfSel sel = none) ∧
  flagOfSel 0x0#4 = some .c ∧ flagOfSel 0x1#4 = some .z ∧ flagOfSel 0x2#4 = some .i ∧
  flagOfSel 0x3#4 = some .d ∧ flagOfSel 0x4#4 = some .b ∧ flagOfSel 0x5#4 = some .u ∧
  flagOfSel 0x6#4 = some .v ∧ flagOfSel 0x7#4 = some .n ∧
  (∀ sel : BitVec 4, 0x8 ≤ sel.toNat → flagOfSel sel = none) ∧
  (∀ (sel : BitVec 4) (f : Sys2Proof.Flag), flagOfSel sel = some f →
    flagBit f = sel.toNat ∧ flagMask f = 1#8 <<< sel.toNat)

/-- 30_encoding.md R58: each of the 2^48 words is exactly one of a legal command and an illegal word under
R56 or R57, and a legal one is a row of the opcode table. -/
def Obligations.EveryWordIsLegalOrIllegal : Prop :=
  ∀ w : CommandWord,
    (LegalWord w ↔ ∃ i, decode w = .ok i) ∧
    ((∃ row ∈ opcodeTable, w &&& row.mask = row.bits) ↔ decode w ≠ .error .badOp) ∧
    (¬ LegalWord w ↔ ∃ c, decode w = .error c)

/-- A decoded command keeps every bit its word reads (30_encoding.md R54), and its mnemonic's row of the
opcode table is the row the word matches (R51). -/
def Obligations.DecodedCommandKeepsTheBitsItReads : Prop :=
  ∀ (w : CommandWord) (i : Instr), decode w = .ok i →
    encode i &&& readMask w = w &&& readMask w ∧
    ∀ row ∈ opcodeTable, row.mnemonic = i.mnemonic ↔ w &&& row.mask = row.bits

/-- 30_encoding.md R55: the bits a command does not read are ignored. Two words with the same read bits do
the same thing in every state, on the port and in a run. -/
def Obligations.IgnoredBitsDoNotMatter : Prop :=
  ∀ (w w' : CommandWord) (rest : List CommandWord) (s : State),
    w &&& readMask w = w' &&& readMask w →
    transact w s = transact w' s ∧ step (s.issuing (w :: rest)) = step (s.issuing (w' :: rest))

/-- 30_encoding.md R56: a word whose `OP` is 0x0, 0xD, 0xE or 0xF faults with `BAD_OP`, whatever its other
fields, and the block answers the cause and changes nothing of its state; the all-zero word is one. -/
def Obligations.IllegalOpFaultsAndChangesNothing : Prop :=
  (∀ (w : CommandWord) (rest : List CommandWord) (s : State),
    (Fields.ofWord w).op ∈ [0x0#4, 0xD#4, 0xE#4, 0xF#4] →
    step (s.issuing (w :: rest)) = .fault (.illegalCommand .badOp) ∧
    (transact w s).2 = { data := 0x0001#16, sp := 0#8, err := true } ∧
    (transact w s).1.rsp = some (transact w s).2 ∧ SameBlock s (transact w s).1) ∧
  (Fields.ofWord 0#48).op ∈ [0x0#4, 0xD#4, 0xE#4, 0xF#4]

/-- 30_encoding.md R57: a `REG_RD` or `REG_WR` with `SEL` above 0x5, or a `FLAG_` command with `SEL` above
0x7, faults with `BAD_SEL`, and the block answers the cause and changes nothing of its state. -/
def Obligations.IllegalSelFaultsAndChangesNothing : Prop :=
  ∀ (w : CommandWord) (rest : List CommandWord) (s : State),
    ((Fields.ofWord w).op ∈ [0x7#4, 0x8#4] ∧ 0x5 < (Fields.ofWord w).sel.toNat) ∨
      ((Fields.ofWord w).op ∈ [0x9#4, 0xA#4, 0xB#4] ∧ 0x7 < (Fields.ofWord w).sel.toNat) →
    step (s.issuing (w :: rest)) = .fault (.illegalCommand .badSel) ∧
    (transact w s).2 = { data := 0x0002#16, sp := 0#8, err := true } ∧
    (transact w s).1.rsp = some (transact w s).2 ∧ SameBlock s (transact w s).1

/-! ## Power-on -/

/-- 70_reset_and_hazards.md R93 with 10_state.md R27: power-on construction sets every piece of state at
once. -/
def Obligations.PowerOnState : Prop :=
  State.reset.rf = { pc := 0x8000#16, a := 0x00#8, x := 0x00#8, y := 0x00#8, s := 0xFD#8, p := 0x20#8 } ∧
  (∀ a : Addr, memRead a State.reset = if a.toNat ≤ 0x7FFF then 0x00#8 else 0xFE#8) ∧
  State.reset.didWrite = false

/-! ## Register-file commands -/

/-- 40_register_ops.md R64: `REG_RD r` answers the register, zero-extended, and changes nothing; `P`
answers with bit 5 set; `SEL` above 5 names no register. -/
def Obligations.RegRdAnswersTheRegister : Prop :=
  (∀ (r : Reg) (s : State), ∃ t, exec (.regRd r) s = .next t ∧
    (t.rsp = some
      { data := match r with
          | .pc => s.rf.pc
          | .a => s.rf.a.setWidth 16
          | .x => s.rf.x.setWidth 16
          | .y => s.rf.y.setWidth 16
          | .s => s.rf.s.setWidth 16
          | .p => s.rf.p.setWidth 16
        sp := 0#8, err := false }) ∧
    SameBlock s t ∧ t.cmds = s.cmds) ∧
  (∀ s : State, s.Inv → ∃ t d, exec (.regRd .p) s = .next t ∧
    t.rsp = some { data := d, sp := 0#8, err := false } ∧ d.getLsbD 5 = true) ∧
  (∀ w : CommandWord, (Fields.ofWord w).op = 0x7#4 →
    (∀ r, (Fields.ofWord w).sel = selOfReg r → decode w = .ok (.regRd r)) ∧
    (0x5 < (Fields.ofWord w).sel.toNat → decode w = .error .badSel))

/-- 40_register_ops.md R65: `REG_WR r` writes 16 bits of `DATA` to `PC`, `DATA[7:0]` to an 8-bit register,
with bit 5 of `P` kept 1, and changes nothing else; `SEL` above 5 names no register. -/
def Obligations.RegWrWritesTheRegister : Prop :=
  (∀ (r : Reg) (data : Word) (s : State), ∃ t, exec (.regWr r data) s = .next t ∧
    readReg r t = (match r with
      | .pc => data
      | .p  => (data ||| 0x0020#16) &&& 0x00FF#16
      | .a | .x | .y | .s => data &&& 0x00FF#16) ∧
    (r = .p → ∀ b < 8, t.rf.p.getLsbD b = if b = 5 then true else data.getLsbD b) ∧
    SameRegistersExcept [r] s t ∧ SameMemoryExcept [] s t ∧ t.didWrite = s.didWrite ∧
    t.cmds = s.cmds ∧ t.rsp = some { data := 0#16, sp := 0#8, err := false }) ∧
  (∀ w : CommandWord, (Fields.ofWord w).op = 0x8#4 →
    (∀ r, (Fields.ofWord w).sel = selOfReg r → decode w = .ok (.regWr r (Fields.ofWord w).data)) ∧
    (0x5 < (Fields.ofWord w).sel.toNat → decode w = .error .badSel))

/-- 40_register_ops.md R66: `FLAG_TST f` answers 0x0001 if the bit of `P` numbered by `SEL` is 1, else
0x0000, and changes nothing; `U` answers 0x0001; `SEL` above 7 names no flag. -/
def Obligations.FlagTstAnswersTheFlag : Prop :=
  (∀ (f : Flag) (s : State), ∃ t, exec (.flagTst f) s = .next t ∧
    t.rsp = some { data := if s.rf.p.getLsbD (selOfFlag f).toNat then 0x0001#16 else 0x0000#16,
                   sp := 0#8, err := false } ∧
    SameBlock s t ∧ t.cmds = s.cmds) ∧
  (∀ s : State, s.Inv → ∃ t, exec (.flagTst .u) s = .next t ∧
    t.rsp = some { data := 0x0001#16, sp := 0#8, err := false }) ∧
  (∀ w : CommandWord, (Fields.ofWord w).op = 0x9#4 →
    (∀ f, (Fields.ofWord w).sel = selOfFlag f → decode w = .ok (.flagTst f)) ∧
    (0x7 < (Fields.ofWord w).sel.toNat → decode w = .error .badSel))

/-- 40_register_ops.md R67: `FLAG_SET f` makes the bit of `P` numbered by `SEL` 1 and keeps the other
seven and everything else; where the bit is already 1 nothing changes; `SEL` above 7 names no flag. -/
def Obligations.FlagSetSetsTheFlag : Prop :=
  (∀ (f : Flag) (s : State), ∃ t, exec (.flagSet f) s = .next t ∧
    (∀ b < 8, t.rf.p.getLsbD b = if b = (selOfFlag f).toNat then true else s.rf.p.getLsbD b) ∧
    (s.rf.p.getLsbD (selOfFlag f).toNat = true → t.rf = s.rf) ∧
    SameRegistersExcept [.p] s t ∧ SameMemoryExcept [] s t ∧ t.didWrite = s.didWrite ∧
    t.cmds = s.cmds ∧ t.rsp = some { data := 0#16, sp := 0#8, err := false }) ∧
  (∀ w : CommandWord, (Fields.ofWord w).op = 0xA#4 →
    (∀ f, (Fields.ofWord w).sel = selOfFlag f → decode w = .ok (.flagSet f)) ∧
    (0x7 < (Fields.ofWord w).sel.toNat → decode w = .error .badSel))

/-- 40_register_ops.md R68: `FLAG_CLR f` makes the bit of `P` numbered by `SEL` 0, but keeps bit 5 at 1,
and keeps the other bits and everything else; `FLAG_CLR U` changes nothing, nor does clearing a bit
that is 0; `SEL` above 7 names no flag. -/
def Obligations.FlagClrClearsTheFlag : Prop :=
  (∀ (f : Flag) (s : State), ∃ t, exec (.flagClr f) s = .next t ∧
    (∀ b < 8, t.rf.p.getLsbD b =
      if b = 5 then true else if b = (selOfFlag f).toNat then false else s.rf.p.getLsbD b) ∧
    (s.Inv → f = .u ∨ s.rf.p.getLsbD (selOfFlag f).toNat = false → t.rf = s.rf) ∧
    SameRegistersExcept [.p] s t ∧ SameMemoryExcept [] s t ∧ t.didWrite = s.didWrite ∧
    t.cmds = s.cmds ∧ t.rsp = some { data := 0#16, sp := 0#8, err := false }) ∧
  (∀ w : CommandWord, (Fields.ofWord w).op = 0xB#4 →
    (∀ f, (Fields.ofWord w).sel = selOfFlag f → decode w = .ok (.flagClr f)) ∧
    (0x7 < (Fields.ofWord w).sel.toNat → decode w = .error .badSel))

/-! ## Memory commands -/

/-- 41_memory_ops.md R72: `MEM_RD` answers the byte at the address, zero-extended, at every address, and
changes nothing; ROM nothing has written answers 0xFE. -/
def Obligations.MemRdAnswersTheByte : Prop :=
  (∀ (a : Addr) (s : State), ∃ t, exec (.memRd a) s = .next t ∧
    t.rsp = some { data := (memRead a s).setWidth 16, sp := 0#8, err := false } ∧
    SameBlock s t ∧ t.cmds = s.cmds) ∧
  (∀ a : Addr, 0x8000 ≤ a.toNat → ∃ t, exec (.memRd a) State.reset = .next t ∧
    t.rsp = some { data := 0x00FE#16, sp := 0#8, err := false }) ∧
  (∀ w : CommandWord, (Fields.ofWord w).op = 0x1#4 → decode w = .ok (.memRd (Fields.ofWord w).addr))

/-- 41_memory_ops.md R73: `MEM_WR` stores `DATA[7:0]` at the address, at every address, ROM and the vector
included, sets `did_write` whatever the byte was, and changes nothing else. -/
def Obligations.MemWrStoresTheByte : Prop :=
  (∀ (a : Addr) (data : Word) (s : State), s.mem.wf = true →
    ∃ t, exec (.memWr a data) s = .next t ∧
      (memRead a t).setWidth 16 = data &&& 0x00FF#16 ∧ SameMemoryExcept [a] s t ∧
      t.didWrite = true ∧ t.rf = s.rf ∧ t.cmds = s.cmds ∧
      t.rsp = some { data := 0#16, sp := 0#8, err := false }) ∧
  (∀ w : CommandWord, (Fields.ofWord w).op = 0x2#4 →
    decode w = .ok (.memWr (Fields.ofWord w).addr (Fields.ofWord w).data))

/-- 41_memory_ops.md R74: `DIAG_RD` answers `did_write` as 0x0001 or 0x0000 and changes nothing, and once
it is 1 it answers 0x0001 after every further sequence of commands. -/
def Obligations.DiagRdAnswersDidWrite : Prop :=
  (∀ s : State, ∃ t, exec .diagRd s = .next t ∧
    t.rsp = some { data := if s.didWrite then 0x0001#16 else 0x0000#16, sp := 0#8, err := false } ∧
    SameBlock s t ∧ t.cmds = s.cmds) ∧
  (∀ (is : List Instr) (s : State), s.didWrite = true →
    ∃ t u, run is.length (s.issuing (is.map encode)) = .next t ∧ exec .diagRd t = .next u ∧
      u.rsp = some { data := 0x0001#16, sp := 0#8, err := false }) ∧
  (∀ w : CommandWord, (Fields.ofWord w).op = 0xC#4 → decode w = .ok .diagRd)

/-! ## Stack commands -/

/-- 42_stack_engine.md R75: the slot of a pointer lies in the stack page, a byte push writes its slot and
steps the pointer down, a byte pull steps it up and reads that slot, both modulo 256; the push sets
`did_write` if and only if the parameter says so, for both values of the parameter. -/
def Obligations.BytePushAndPullStepThePointer : Prop :=
  (∀ sp : Byte, (stackAddr sp).toNat = 0x0100 + sp.toNat) ∧
  (∀ (sets : Bool) (sp v : Byte) (s : State), s.mem.wf = true →
    (pushByte sets sp v s).1.toNat = (sp.toNat + 255) % 256 ∧
    memRead (stackAddr sp) (pushByte sets sp v s).2 = v ∧
    SameMemoryExcept [stackAddr sp] s (pushByte sets sp v s).2 ∧
    (pushByte sets sp v s).2.didWrite = (s.didWrite || sets) ∧
    (pushByte sets sp v s).2.rf = s.rf) ∧
  (∀ (sp : Byte) (s : State),
    (pullByte sp s).1.toNat = (sp.toNat + 1) % 256 ∧
    ∀ a : Addr, a.toNat = 0x0100 + (sp.toNat + 1) % 256 → (pullByte sp s).2 = memRead a s)

/-- 42_stack_engine.md R76: `PUSH_B` stores `DATA[7:0]` at 0x0100 + SPV, answers SPV - 1 modulo 256, sets
`did_write` as the parameter says, and changes nothing else: no register, not even `S`. -/
def Obligations.PushByteStoresAndAnswersThePointer : Prop :=
  (∀ (sp : Byte) (data : Word) (s : State), s.mem.wf = true →
    ∃ t, exec (.pushB sp data) s = .next t ∧
      (memRead (0x0100#16 + sp.setWidth 16) t).setWidth 16 = data &&& 0x00FF#16 ∧
      SameMemoryExcept [0x0100#16 + sp.setWidth 16] s t ∧
      t.didWrite = (s.didWrite || Config.pushSetsDidWrite) ∧ t.rf = s.rf ∧ t.cmds = s.cmds ∧
      t.rsp = some { data := 0#16, sp := BitVec.ofNat 8 ((sp.toNat + 255) % 256), err := false }) ∧
  (∀ w : CommandWord, (Fields.ofWord w).op = 0x3#4 →
    decode w = .ok (.pushB (Fields.ofWord w).spv (Fields.ofWord w).data))

/-- 42_stack_engine.md R77: `PUSH_W` stores the high byte at 0x0100 + SPV and the low byte at
0x0100 + ((SPV - 1) mod 256), answers SPV - 2 modulo 256, sets `did_write` as the parameter says,
and changes nothing else. -/
def Obligations.PushWordStoresHighByteFirst : Prop :=
  (∀ (sp : Byte) (data : Word) (s : State), s.mem.wf = true →
    ∃ t, exec (.pushW sp data) s = .next t ∧
      (memRead (0x0100#16 + sp.setWidth 16) t).setWidth 16 = data >>> 8 ∧
      (memRead (BitVec.ofNat 16 (0x0100 + (sp.toNat + 255) % 256)) t).setWidth 16 = data &&& 0x00FF#16 ∧
      SameMemoryExcept
        [0x0100#16 + sp.setWidth 16, BitVec.ofNat 16 (0x0100 + (sp.toNat + 255) % 256)] s t ∧
      t.didWrite = (s.didWrite || Config.pushSetsDidWrite) ∧ t.rf = s.rf ∧ t.cmds = s.cmds ∧
      t.rsp = some { data := 0#16, sp := BitVec.ofNat 8 ((sp.toNat + 254) % 256), err := false }) ∧
  (∀ w : CommandWord, (Fields.ofWord w).op = 0x4#4 →
    decode w = .ok (.pushW (Fields.ofWord w).spv (Fields.ofWord w).data))

/-- 42_stack_engine.md R78: `PULL_B` answers the byte at 0x0100 + ((SPV + 1) mod 256) and SPV + 1 modulo
256, and changes nothing: the byte stays in its slot, and no flag and no register is written. -/
def Obligations.PullByteAnswersTheSlotAbove : Prop :=
  (∀ (sp : Byte) (s : State), ∃ t, exec (.pullB sp) s = .next t ∧
    t.rsp = some
      { data := (memRead (BitVec.ofNat 16 (0x0100 + (sp.toNat + 1) % 256)) s).setWidth 16,
        sp := BitVec.ofNat 8 ((sp.toNat + 1) % 256), err := false } ∧
    SameBlock s t ∧ t.cmds = s.cmds) ∧
  (∀ w : CommandWord, (Fields.ofWord w).op = 0x5#4 → decode w = .ok (.pullB (Fields.ofWord w).spv))

/-- 42_stack_engine.md R79: `PULL_W` answers the word whose low byte is at 0x0100 + ((SPV + 1) mod 256)
and whose high byte is at 0x0100 + ((SPV + 2) mod 256), and SPV + 2 modulo 256, and changes nothing. -/
def Obligations.PullWordReadsLowByteFirst : Prop :=
  (∀ (sp : Byte) (s : State), ∃ t d, exec (.pullW sp) s = .next t ∧
    t.rsp = some { data := d, sp := BitVec.ofNat 8 ((sp.toNat + 2) % 256), err := false } ∧
    d.toNat = (memRead (BitVec.ofNat 16 (0x0100 + (sp.toNat + 2) % 256)) s).toNat * 256 +
      (memRead (BitVec.ofNat 16 (0x0100 + (sp.toNat + 1) % 256)) s).toNat ∧
    SameBlock s t ∧ t.cmds = s.cmds) ∧
  (∀ w : CommandWord, (Fields.ofWord w).op = 0x6#4 → decode w = .ok (.pullW (Fields.ofWord w).spv))

/-- 42_stack_engine.md R82: a push and then a pull of its pointer answer the value pushed and the pointer
the push began with, for a byte and for a word, and leave memory as the push left it. -/
def Obligations.PullUndoesPush : Prop :=
  (∀ (sp v : Byte) (s : State), s.mem.wf = true →
    ∃ t u p, exec (.pushB sp (v.setWidth 16)) s = .next t ∧
      t.rsp = some { data := 0#16, sp := p, err := false } ∧
      exec (.pullB p) t = .next u ∧
      u.rsp = some { data := v.setWidth 16, sp := sp, err := false } ∧ SameMemoryExcept [] t u) ∧
  (∀ (sp : Byte) (w : Word) (s : State), s.mem.wf = true →
    ∃ t u p, exec (.pushW sp w) s = .next t ∧
      t.rsp = some { data := 0#16, sp := p, err := false } ∧
      exec (.pullW p) t = .next u ∧
      u.rsp = some { data := w, sp := sp, err := false } ∧ SameMemoryExcept [] t u)

/-- 20_memory.md R38: two `PUSH_B`, high byte first, do what one `PUSH_W` does; two `PULL_B` answer, low
byte first, the bytes of one `PULL_W`; so a pushed word comes back by two `PULL_B`. -/
def Obligations.WordAccessIsTwoByteAccesses : Prop :=
  (∀ (sp : Byte) (w : Word) (s : State),
    ∃ t₁ t₂ t p₁ p₂, exec (.pushB sp (w >>> 8)) s = .next t₁ ∧
      t₁.rsp = some { data := 0#16, sp := p₁, err := false } ∧
      exec (.pushB p₁ w) t₁ = .next t₂ ∧
      t₂.rsp = some { data := 0#16, sp := p₂, err := false } ∧
      exec (.pushW sp w) s = .next t ∧ t = t₂) ∧
  (∀ (sp : Byte) (s : State),
    ∃ t₁ t₂ t p₁ p₂ lo hi w, exec (.pullB sp) s = .next t₁ ∧
      t₁.rsp = some { data := lo, sp := p₁, err := false } ∧
      exec (.pullB p₁) t₁ = .next t₂ ∧
      t₂.rsp = some { data := hi, sp := p₂, err := false } ∧
      exec (.pullW sp) s = .next t ∧ t.rsp = some { data := w, sp := p₂, err := false } ∧
      w.toNat = hi.toNat * 256 + lo.toNat ∧ SameBlock t t₂) ∧
  (∀ (sp : Byte) (w : Word) (s : State), s.mem.wf = true →
    ∃ t t₁ t₂ p p₁, exec (.pushW sp w) s = .next t ∧
      t.rsp = some { data := 0#16, sp := p, err := false } ∧
      exec (.pullB p) t = .next t₁ ∧
      t₁.rsp = some { data := w &&& 0x00FF#16, sp := p₁, err := false } ∧
      exec (.pullB p₁) t₁ = .next t₂ ∧
      t₂.rsp = some { data := w >>> 8, sp := sp, err := false })

/-- 20_memory.md R35: the stack commands change and see no byte outside 0x0100..0x01FF: states that agree
on that page are answered alike. And `MEM_WR` and `MEM_RD` reach the page like any address: a byte
written there is what a pull of its slot answers, a byte pushed is what `MEM_RD` answers. -/
def Obligations.StackCommandsTouchTheStackPageOnly : Prop :=
  (∀ (i : Instr) (s t : State), isStackCommand i = true → exec i s = .next t →
    ∀ a : Addr, a.toNat < 0x0100 ∨ 0x01FF < a.toNat → memRead a t = memRead a s) ∧
  (∀ (i : Instr) (s s' t t' : State), isStackCommand i = true →
    (∀ a : Addr, 0x0100 ≤ a.toNat → a.toNat ≤ 0x01FF → memRead a s = memRead a s') →
    exec i s = .next t → exec i s' = .next t' → t.rsp = t'.rsp) ∧
  (∀ (sp v : Byte) (s : State), s.mem.wf = true →
    (∃ t u, exec (.memWr (stackAddr (spUp sp)) (v.setWidth 16)) s = .next t ∧ exec (.pullB sp) t = .next u ∧
      u.rsp = some { data := v.setWidth 16, sp := spUp sp, err := false }) ∧
    (∃ t u, exec (.pushB sp (v.setWidth 16)) s = .next t ∧ exec (.memRd (stackAddr sp)) t = .next u ∧
      u.rsp = some { data := v.setWidth 16, sp := 0#8, err := false }))

/-- No stack command reads or writes register `S`, nor any other register: with another register file
the command does the same to memory and `did_write`, answers the same, and leaves that register
file as it was (42_stack_engine.md R80). -/
def Obligations.StackCommandsIgnoreTheRegisterFile : Prop :=
  ∀ (i : Instr) (s : State) (f : RegFile), isStackCommand i = true →
    ∃ t, exec i s = .next t ∧ t.rf = s.rf ∧ exec i { s with rf := f } = .next { t with rf := f }

/-- The block does not see a pointer that the caller did not carry forward (70_reset_and_hazards.md R97):
a second byte push at the same pointer overwrites the first, so memory is as after the second alone. -/
def Obligations.PushAtTheSamePointerOverwrites : Prop :=
  ∀ (sp v v' : Byte) (s : State), s.mem.wf = true →
    ∃ t u r, exec (.pushB sp (v.setWidth 16)) s = .next t ∧ exec (.pushB sp (v'.setWidth 16)) t = .next u ∧
      exec (.pushB sp (v'.setWidth 16)) s = .next r ∧
      (∀ a, memRead a u = memRead a r) ∧ u.rsp = r.rsp ∧ u.rf = s.rf

/-! ## Address space -/

/-- 20_memory.md R30: the partition's ranges, each inclusive at both ends; every address lies in exactly
one of the four regions, and the two vector bytes lie in ROM. -/
def Obligations.RegionsPartitionTheAddressSpace : Prop :=
  Region.zeroPage.range = (0x0000, 0x00FF) ∧ Region.stack.range = (0x0100, 0x01FF) ∧
  Region.ram.range = (0x0200, 0x7FFF) ∧ Region.rom.range = (0x8000, 0xFFFF) ∧
  (∀ a : Addr, ∃ r : Region, r.contains a = true ∧ ∀ r' : Region, r'.contains a = true → r' = r) ∧
  (∀ (r : Region) (a : Addr), r.contains a = true ↔ r.range.1 ≤ a.toNat ∧ a.toNat ≤ r.range.2) ∧
  Config.irqVecLo = 0xFFFE#16 ∧ Config.irqVecHi = 0xFFFF#16 ∧
  Region.rom.contains Config.irqVecLo = true ∧ Region.rom.contains Config.irqVecHi = true

/-- The BRK/IRQ vector is what the caller writes, low byte at 0xFFFE and high byte at 0xFFFF, in either
order, and reads 0xFEFE at power-on (20_memory.md R33, R37). -/
def Obligations.VectorHoldsItsLowByteFirst : Prop :=
  irqVector State.reset = 0xFEFE#16 ∧
  (∀ (lo hi : Byte) (s : State), s.mem.wf = true →
    (∃ t u, exec (.memWr 0xFFFE#16 (lo.setWidth 16)) s = .next t ∧
      exec (.memWr 0xFFFF#16 (hi.setWidth 16)) t = .next u ∧
      (irqVector u).toNat = hi.toNat * 256 + lo.toNat) ∧
    (∃ t u, exec (.memWr 0xFFFF#16 (hi.setWidth 16)) s = .next t ∧
      exec (.memWr 0xFFFE#16 (lo.setWidth 16)) t = .next u ∧
      (irqVector u).toNat = hi.toNat * 256 + lo.toNat))

/-! ## Whole-machine rules -/

/-- 10_state.md R26: `did_write` is 0 at power-on and changes only from 0 to 1; `MEM_WR` always sets it, a
push sets it if and only if the parameter is true, no other command sets it; `DIAG_RD` reads it. -/
def Obligations.DidWriteOnlyRises : Prop :=
  State.reset.didWrite = false ∧
  (∀ (i : Instr) (s t : State), exec i s = .next t →
    (t.didWrite = true ↔ s.didWrite = true ∨ (∃ a d, i = .memWr a d) ∨
      (Config.pushSetsDidWrite = true ∧ ∃ sp d, i = .pushB sp d ∨ i = .pushW sp d))) ∧
  (∀ s : State, ∃ t, exec .diagRd s = .next t ∧
    t.rsp = some { data := if s.didWrite then 0x0001#16 else 0x0000#16, sp := 0#8, err := false })

/-- A register changes only by a `REG_WR` of that register; `P` also by `FLAG_SET` and `FLAG_CLR`. No
command advances `PC`, touches `S`, or writes a flag as a side effect (10_state.md R14 to R18, R23). -/
def Obligations.RegistersChangeOnlyByTheirCommands : Prop :=
  ∀ (i : Instr) (s t : State) (r : Reg), exec i s = .next t → readReg r t ≠ readReg r s →
    (∃ data, i = .regWr r data) ∨ (r = .p ∧ ∃ f, i = .flagSet f ∨ i = .flagClr f)

/-- A flag of `P` changes only by a `REG_WR P`, or by the `FLAG_SET` or `FLAG_CLR` of that flag, and bit 5
never does; so no command writes a flag as a side effect, and a pull does not set `N` or `Z`
(10_state.md R21 to R23). -/
def Obligations.FlagsChangeOnlyByTheirCommands : Prop :=
  ∀ (i : Instr) (s t : State) (f : Sys2Proof.Flag), s.Inv → exec i s = .next t →
    testFlag f t.rf.p ≠ testFlag f s.rf.p →
    f ≠ .u ∧ ((∃ data, i = .regWr .p data) ∨ i = .flagSet f ∨ i = .flagClr f)

/-- A byte of memory changes only where a `MEM_WR` names its address, or a push names its slot
(20_memory.md R42, 42_stack_engine.md R76, R77). -/
def Obligations.MemoryChangesOnlyWhereCommandsStore : Prop :=
  ∀ (i : Instr) (s t : State) (a : Addr), exec i s = .next t → memRead a t ≠ memRead a s →
    (∃ data, i = .memWr a data) ∨
    (∃ sp data, i = .pushB sp data ∧ a = 0x0100#16 + sp.setWidth 16) ∨
    (∃ sp data, i = .pushW sp data ∧
      (a = 0x0100#16 + sp.setWidth 16 ∨ a = 0x0100#16 + (sp - 1#8).setWidth 16))

/-- Every command answers without an error, and the response fields it does not produce are 0
(30_encoding.md R59). -/
def Obligations.UnproducedResponseFieldsAreZero : Prop :=
  ∀ (i : Instr) (s : State), ∃ t r, exec i s = .next t ∧ t.rsp = some r ∧ r.err = false ∧
    (isStackCommand i = false → r.sp = 0#8) ∧
    ((∃ a d, i = .memWr a d) ∨ (∃ sp d, i = .pushB sp d ∨ i = .pushW sp d) ∨ (∃ q d, i = .regWr q d) ∨
      (∃ f, i = .flagSet f ∨ i = .flagClr f) → r.data = 0#16)

/-- The invariant holds at power-on: no memory byte is listed, and bit 5 of `P` is 1. -/
def Obligations.InvariantAtPowerOn : Prop := State.reset.Inv

/-- Every step keeps the invariant: the memory stays in canonical form and bit 5 of `P` stays 1
(10_state.md R21). -/
def Obligations.StepKeepsInvariant : Prop :=
  ∀ s t : State, s.Inv → step s = .next t → t.Inv

/-- Bit 5 of `P` always reads 1: after any run of any commands, from any state in which it is 1,
`FLAG_TST U` answers 0x0001 and `REG_RD P` answers a byte with bit 5 set; power-on is such a state
(10_state.md R21). -/
def Obligations.UnusedFlagReadsOneAfterAnyRun : Prop :=
  State.reset.rf.p.getLsbD 5 = true ∧
  ∀ (k : Nat) (s t : State), s.rf.p.getLsbD 5 = true → run k s = .next t →
    (∃ u, exec (.flagTst .u) t = .next u ∧
      u.rsp = some { data := 0x0001#16, sp := 0#8, err := false }) ∧
    (∃ u d, exec (.regRd .p) t = .next u ∧
      u.rsp = some { data := d, sp := 0#8, err := false } ∧ d.getLsbD 5 = true)

/-! ## Steps and runs -/

/-- When the oldest pending word decodes to a command, the step is that command's effect, with the word
taken off the request port (log 1). -/
def Obligations.StepRunsTheDecodedCommand : Prop :=
  ∀ (s : State) (w : CommandWord) (rest : List CommandWord) (i : Instr),
    s.cmds = w :: rest → decode w = .ok i → step s = exec i { s with cmds := rest }

/-- With no command pending the step changes nothing: the model's choice (log 2) for a block that
has no step of its own (00_scope.md R9). -/
def Obligations.StepWithoutACommandChangesNothing : Prop :=
  ∀ s : State, s.cmds = [] → step s = .next s

/-- `Exec(st, cmd)` and the step agree (00_scope.md R11): a step that takes a legal word leaves the state
of the transaction, and the response on the port is the transaction's; a step that takes an illegal
word is a fault. -/
def Obligations.TransactionAndStepAgree : Prop :=
  ∀ (s : State) (w : CommandWord) (rest : List CommandWord),
    (LegalWord w → step (s.issuing (w :: rest)) = .next (transact w (s.issuing rest)).1) ∧
    (¬ LegalWord w → ∃ c, decode w = .error c ∧ step (s.issuing (w :: rest)) = .fault (.illegalCommand c)) ∧
    (transact w s).1.rsp = some (transact w s).2 ∧
    ((transact w s).2.err = true ↔ ¬ LegalWord w)

/-- 60_exceptions.md R84: no legal command fails: in every state a legal word, whatever its operands, is a
command, and that command completes. -/
def Obligations.EveryLegalCommandCompletes : Prop :=
  ∀ (w : CommandWord) (s : State), LegalWord w → ∃ i t, decode w = .ok i ∧ exec i s = .next t

/-- A run whose pending words are all legal never stops (60_exceptions.md R84): after `k` steps the first
`k` words are done. Steps beyond the last word change nothing: `k` steps and as many of them as there are
words end in one state, and that state stays as it is (the model's choice, logs 1, 2). -/
def Obligations.LegalRunsNeverFail : Prop :=
  ∀ (k : Nat) (s : State), (∀ w ∈ s.cmds, LegalWord w) →
    ∃ t, run k s = .next t ∧ run (min k s.cmds.length) s = .next t ∧ t.cmds = s.cmds.drop k ∧
      run (k - s.cmds.length) t = .next t

/-- A run stops exactly at its first illegal word, and with that word's cause; it never stops otherwise,
and never with a refusal (60_exceptions.md R83, R84). That the words come as a list, and that a step with
no word left answers a next state, so that a run of more steps than words does not stop either, is the
model's choice (logs 1, 2). -/
def Obligations.RunsStopExactlyAtAnIllegalWord : Prop :=
  ∀ (k : Nat) (s : State),
    (∀ c, run k s = .fault (.illegalCommand c) ↔ firstCause (s.cmds.take k) = some c) ∧
    ((∃ t, run k s = .next t) ↔ firstCause (s.cmds.take k) = none) ∧
    (∀ r, run k s ≠ .refused r)

/-- 20_memory.md R44: commands take effect in the order issued, and a byte reads as the most recent write
to its address, or, where nothing wrote it, as it read before; at power-on that is 0x00 below
0x8000 and 0xFE from there on. -/
def Obligations.ReadsGiveTheMostRecentWrite : Prop :=
  (∀ (is : List Instr) (s : State), s.mem.wf = true →
    ∃ t, run is.length (s.issuing (is.map encode)) = .next t ∧
      ∀ a : Addr, ∃ u, exec (.memRd a) t = .next u ∧
        u.rsp = some { data := (lastWrite a (memRead a s) (is.flatMap byteWrites)).setWidth 16,
                       sp := 0#8, err := false }) ∧
  (∀ is : List Instr, ∃ t, run is.length (State.reset.issuing (is.map encode)) = .next t ∧
    ∀ a : Addr, memRead a t =
      lastWrite a (if a.toNat < 0x8000 then 0x00#8 else 0xFE#8) (is.flatMap byteWrites))

/-- After any sequence of commands, `did_write` is 1 exactly if it was 1 or one of the commands sets it
(10_state.md R26, for both values of the parameter of 00_scope.md R8). -/
def Obligations.DidWriteRecordsTheRun : Prop :=
  ∀ (is : List Instr) (s : State), ∃ t, run is.length (s.issuing (is.map encode)) = .next t ∧
    t.didWrite = (s.didWrite || is.any setsDidWrite)

/-! ## Diagnostic functions -/

/-- 40_register_ops.md R69: `RfEq` is true if and only if all six registers are equal, so memory and
`did_write` are no part of it. -/
def Obligations.RfEqComparesTheSixRegisters : Prop :=
  ∀ f g : RegFile, rfEq f g = true ↔
    f.pc = g.pc ∧ f.a = g.a ∧ f.x = g.x ∧ f.y = g.y ∧ f.s = g.s ∧ f.p = g.p

/-- 40_register_ops.md R70: `RfNe` is the negation of `RfEq`, so it is true if and only if some register
differs. -/
def Obligations.RfNeIsTheNegationOfRfEq : Prop :=
  ∀ f g : RegFile, (rfNe f g = true ↔ ¬ rfEq f g = true) ∧ (rfNe f g = true ↔ f ≠ g)

/-- 40_register_ops.md R71: the display string is the template with `PC` as four and each 8-bit register as
two upper-case hex digits, zero-padded, two spaces between fields and no newline; the power-on
string is the rule's example. -/
def Obligations.RfFormatFollowsTheTemplate : Prop :=
  (∀ f : RegFile, ∃ dpc da dx dy ds dp : List Char,
    rfFormat f = String.ofList ("PC: $".toList ++ dpc ++ "  A: $".toList ++ da ++ "  X: $".toList ++ dx ++
      "  Y: $".toList ++ dy ++ "  S: $".toList ++ ds ++ "  P: $".toList ++ dp) ∧
    takeHex 4 0 dpc = some (f.pc.toNat, []) ∧ takeHex 2 0 da = some (f.a.toNat, []) ∧
    takeHex 2 0 dx = some (f.x.toNat, []) ∧ takeHex 2 0 dy = some (f.y.toNat, []) ∧
    takeHex 2 0 ds = some (f.s.toNat, []) ∧ takeHex 2 0 dp = some (f.p.toNat, [])) ∧
  rfFormat State.reset.rf = "PC: $8000  A: $00  X: $00  Y: $00  S: $FD  P: $20"

/-- The display string tells register files apart (40_register_ops.md R69, R71). -/
def Obligations.RfFormatTellsRegisterFilesApart : Prop :=
  ∀ f g : RegFile, rfFormat f = rfFormat g ↔ rfEq f g = true

/-! ## Pseudo-commands and assembler text -/

/-- The pushes through register `S` (30_encoding.md R63): the value lands at the slot of `S`, the word's
low byte one slot below, `S` steps down, no other register and no other byte changes, and `did_write`
becomes 1 exactly if it was 1 or the parameter says that a push sets it (10_state.md R26). -/
def Obligations.PushesThroughSMoveS : Prop :=
  (∀ (v : Byte) (s : State), s.mem.wf = true →
    (runPseudo (.pushsB v) s).1.rf = { s.rf with s := s.rf.s - 1#8 } ∧
    memRead (stackAddr s.rf.s) (runPseudo (.pushsB v) s).1 = v ∧
    SameMemoryExcept [stackAddr s.rf.s] s (runPseudo (.pushsB v) s).1 ∧
    (runPseudo (.pushsB v) s).1.didWrite = (s.didWrite || Config.pushSetsDidWrite)) ∧
  (∀ (w : Word) (s : State), s.mem.wf = true →
    (runPseudo (.pushsW w) s).1.rf = { s.rf with s := s.rf.s - 2#8 } ∧
    memRead (stackAddr s.rf.s) (runPseudo (.pushsW w) s).1 = hiByte w ∧
    memRead (stackAddr (s.rf.s - 1#8)) (runPseudo (.pushsW w) s).1 = loByte w ∧
    SameMemoryExcept [stackAddr s.rf.s, stackAddr (s.rf.s - 1#8)] s (runPseudo (.pushsW w) s).1 ∧
    (runPseudo (.pushsW w) s).1.didWrite = (s.didWrite || Config.pushSetsDidWrite))

/-- The pulls through register `S` (30_encoding.md R63): the answer is the byte, or the word with its low
byte first, above `S`, `S` steps up, and nothing else changes. -/
def Obligations.PullsThroughSMoveS : Prop :=
  ∀ s : State,
    (runPseudo .pullsB s).1.rf = { s.rf with s := s.rf.s + 1#8 } ∧
    (runPseudo .pullsB s).2.data = (memRead (stackAddr (s.rf.s + 1#8)) s).setWidth 16 ∧
    SameMemoryExcept [] s (runPseudo .pullsB s).1 ∧ (runPseudo .pullsB s).1.didWrite = s.didWrite ∧
    (runPseudo .pullsW s).1.rf = { s.rf with s := s.rf.s + 2#8 } ∧
    (runPseudo .pullsW s).2.data.toNat =
      (memRead (stackAddr (s.rf.s + 2#8)) s).toNat * 256 + (memRead (stackAddr (s.rf.s + 1#8)) s).toNat ∧
    SameMemoryExcept [] s (runPseudo .pullsW s).1 ∧ (runPseudo .pullsW s).1.didWrite = s.didWrite

/-- A pull through `S` undoes a push through `S`: it answers what was pushed, and every register, `S`
among them, is as before the push (30_encoding.md R63, 42_stack_engine.md R82). -/
def Obligations.PullThroughSUndoesPushThroughS : Prop :=
  ∀ s : State, s.mem.wf = true →
    (∀ v : Byte, (runPseudo .pullsB (runPseudo (.pushsB v) s).1).2.data = v.setWidth 16 ∧
      (runPseudo .pullsB (runPseudo (.pushsB v) s).1).1.rf = s.rf) ∧
    (∀ w : Word, (runPseudo .pullsW (runPseudo (.pushsW w) s).1).2.data = w ∧
      (runPseudo .pullsW (runPseudo (.pushsW w) s).1).1.rf = s.rf)

/-- The assembler reads the spelling of every command and pseudo-command back, with `DATA[15:8]` 0 where
the form writes two digits (30_encoding.md R62, R63). -/
def Obligations.AssemblerReadsEverySpelling : Prop :=
  (∀ i : Instr, readLine (spell i) = some (.command
    (match i with
      | .memWr a d => .memWr a (d &&& 0x00FF#16)
      | .pushB sp d => .pushB sp (d &&& 0x00FF#16)
      | .regWr r d => .regWr r (if r = .pc then d else d &&& 0x00FF#16)
      | j => j))) ∧
  (∀ p : Pseudo, readLine (spellPseudo p) = some (.pseudo p))

/-- Lines of spec/95_test_vectors.md, one of each command, assemble to the words printed beside them. -/
def Obligations.WrittenOutLinesAssemble : Prop :=
  assemble "MEM_RD $FFFE" = some 0x1000FFFE0000#48 ∧
  assemble "MEM_WR $8000, #$A9" = some 0x2000800000A9#48 ∧
  assemble "PUSH_B $FD, #$5A" = some 0x30FD0000005A#48 ∧
  assemble "PUSH_W $FD, #$A1B2" = some 0x40FD0000A1B2#48 ∧
  assemble "PULL_B $FC" = some 0x50FC00000000#48 ∧
  assemble "PULL_W $FB" = some 0x60FB00000000#48 ∧
  assemble "REG_RD P" = some 0x750000000000#48 ∧
  assemble "REG_WR PC, #$FFFF" = some 0x80000000FFFF#48 ∧
  assemble "REG_WR P, #$C3" = some 0x8500000000C3#48 ∧
  assemble "FLAG_TST U" = some 0x950000000000#48 ∧
  assemble "FLAG_SET N" = some 0xA70000000000#48 ∧
  assemble "FLAG_CLR B" = some 0xB40000000000#48 ∧
  assemble "DIAG_RD" = some 0xC00000000000#48
end

