-- ==== Sys2Proof/Laws/Decode.lean ====
section
/-! SUPPORT. The two ways between a command word and its fields are inverse, and so are the two tables of
`SEL` values. -/

namespace Sys2Proof

@[simp] theorem Fields.ofWord_toWord (f : Fields) : Fields.ofWord f.toWord = f := by
  obtain ⟨op, sel, spv, addr, data⟩ := f
  simp only [Fields.ofWord, Fields.toWord, Fields.mk.injEq]
  refine ⟨?_, ?_, ?_, ?_, ?_⟩ <;> ext i hi <;> simp <;> grind

theorem Fields.toWord_ofWord (w : CommandWord) : (Fields.ofWord w).toWord = w := by
  simp only [Fields.ofWord, Fields.toWord]
  ext i hi
  simp [BitVec.getLsbD_extractLsb']
  grind

@[simp] theorem regOfSel_selOfReg (r : Reg) : regOfSel (selOfReg r) = some r := by
  cases r <;> rfl

@[simp] theorem flagOfSel_selOfFlag (f : Flag) : flagOfSel (selOfFlag f) = some f := by
  cases f <;> rfl

theorem selOfReg_of_regOfSel {sel : BitVec 4} {r : Reg} (h : regOfSel sel = some r) : sel = selOfReg r := by
  revert h; revert sel; cases r <;> decide

theorem selOfFlag_of_flagOfSel {sel : BitVec 4} {f : Flag} (h : flagOfSel sel = some f) : sel = selOfFlag f := by
  revert h; revert sel; cases f <;> decide

theorem regOfSel_eq_none {sel : BitVec 4} : regOfSel sel = none ↔ 0x5 < sel.toNat := by
  revert sel; decide

theorem flagOfSel_eq_none {sel : BitVec 4} : flagOfSel sel = none ↔ 0x7 < sel.toNat := by
  revert sel; decide

end Sys2Proof
end

