-- ==== Sys2Proof/Laws/State.lean ====
section
/-! SUPPORT. One lemma per field of State for each update the operations make. -/

namespace Sys2Proof.Machine

variable (s : State) (a : Addr) (v : Byte) (b : Bool) (r : Reg) (d : Word)

@[simp] theorem memWrite_rf : (memWrite a v s).rf = s.rf := rfl
@[simp] theorem memWrite_mem : (memWrite a v s).mem = Memory.write s.mem a.toNat v := rfl
@[simp] theorem memWrite_didWrite : (memWrite a v s).didWrite = s.didWrite := rfl
@[simp] theorem memWrite_cmds : (memWrite a v s).cmds = s.cmds := rfl
@[simp] theorem memWrite_rsp : (memWrite a v s).rsp = s.rsp := rfl

@[simp] theorem raiseDidWrite_rf : (raiseDidWrite b s).rf = s.rf := rfl
@[simp] theorem raiseDidWrite_mem : (raiseDidWrite b s).mem = s.mem := rfl
@[simp] theorem raiseDidWrite_didWrite : (raiseDidWrite b s).didWrite = (s.didWrite || b) := rfl
@[simp] theorem raiseDidWrite_cmds : (raiseDidWrite b s).cmds = s.cmds := rfl
@[simp] theorem raiseDidWrite_rsp : (raiseDidWrite b s).rsp = s.rsp := rfl

@[simp] theorem setP_rf : (setP v s).rf = { s.rf with p := v } := rfl
@[simp] theorem setP_mem : (setP v s).mem = s.mem := rfl
@[simp] theorem setP_didWrite : (setP v s).didWrite = s.didWrite := rfl
@[simp] theorem setP_cmds : (setP v s).cmds = s.cmds := rfl
@[simp] theorem setP_rsp : (setP v s).rsp = s.rsp := rfl

@[simp] theorem writeReg_mem : (writeReg r d s).mem = s.mem := by cases r <;> rfl
@[simp] theorem writeReg_didWrite : (writeReg r d s).didWrite = s.didWrite := by cases r <;> rfl
@[simp] theorem writeReg_cmds : (writeReg r d s).cmds = s.cmds := by cases r <;> rfl
@[simp] theorem writeReg_rsp : (writeReg r d s).rsp = s.rsp := by cases r <;> rfl

end Sys2Proof.Machine
end

