-- ==== Sys2Proof/Laws/Memory.lean ====
section
/-! SUPPORT. The memory laws: a byte written is the byte read, every other byte stays, and every
operation keeps the canonical form (log 6). -/

namespace Sys2Proof.Machine

/-- Below the first listed address of a canonical memory, every address reads as at power-on. -/
theorem Memory.read_below {m : Memory} {lo a : Nat} (h : Memory.wfFrom lo m = true) (ha : a < lo) :
    Memory.read m a = powerOnByte a := by
  induction m generalizing lo with
  | nil => rfl
  | cons e m ih =>
    obtain ⟨k, b⟩ := e
    simp only [Memory.wfFrom, Bool.and_eq_true, decide_eq_true_eq] at h
    have hk : k ≠ a := by omega
    simp only [Memory.read, hk, if_false]
    exact ih h.2 (by omega)

/-- A canonical memory stays canonical from any lower address on. -/
theorem Memory.wfFrom_mono {m : Memory} {lo lo' : Nat} (h : Memory.wfFrom lo m = true) (hl : lo' ≤ lo) :
    Memory.wfFrom lo' m = true := by
  cases m with
  | nil => rfl
  | cons e m =>
    obtain ⟨k, b⟩ := e
    simp only [Memory.wfFrom, Bool.and_eq_true, decide_eq_true_eq] at h ⊢
    exact ⟨⟨⟨by omega, h.1.1.2⟩, h.1.2⟩, h.2⟩

theorem Memory.read_put_same {m : Memory} {a : Nat} (v : Byte) (h : Memory.wfFrom (a + 1) m = true) :
    Memory.read (Memory.put a v m) a = v := by
  unfold Memory.put
  split
  · rw [Memory.read_below h (by omega)]; simp_all
  · simp [Memory.read]

theorem Memory.read_put_other {m : Memory} {a a' : Nat} (v : Byte) (ha : a' ≠ a) :
    Memory.read (Memory.put a v m) a' = Memory.read m a' := by
  unfold Memory.put
  split
  · rfl
  · simp [Memory.read, Ne.symm ha]

theorem Memory.wfFrom_put {m : Memory} {lo a : Nat} (v : Byte) (hlo : lo ≤ a) (hs : a < Config.memSize)
    (h : Memory.wfFrom (a + 1) m = true) : Memory.wfFrom lo (Memory.put a v m) = true := by
  unfold Memory.put
  split
  · exact Memory.wfFrom_mono h (by omega)
  · simp_all [Memory.wfFrom]

theorem Memory.wfFrom_write {m : Memory} {lo a : Nat} (v : Byte) (h : Memory.wfFrom lo m = true)
    (hlo : lo ≤ a) (hs : a < Config.memSize) : Memory.wfFrom lo (Memory.write m a v) = true := by
  induction m generalizing lo with
  | nil => exact Memory.wfFrom_put v hlo hs rfl
  | cons e m ih =>
    obtain ⟨k, b⟩ := e
    have h' := h
    simp only [Memory.wfFrom, Bool.and_eq_true, decide_eq_true_eq] at h
    obtain ⟨⟨⟨h1, h2⟩, h3⟩, h4⟩ := h
    unfold Memory.write
    split
    · refine Memory.wfFrom_put v hlo hs ?_
      simp only [Memory.wfFrom, Bool.and_eq_true, decide_eq_true_eq]
      exact ⟨⟨⟨by omega, h2⟩, h3⟩, h4⟩
    · split
      · subst_vars; exact Memory.wfFrom_put v hlo hs h4
      · simp only [Memory.wfFrom, Bool.and_eq_true, decide_eq_true_eq]
        exact ⟨⟨⟨h1, h2⟩, h3⟩, ih h4 (by omega)⟩

theorem Memory.read_write_same {m : Memory} {lo a : Nat} (v : Byte) (h : Memory.wfFrom lo m = true) :
    Memory.read (Memory.write m a v) a = v := by
  induction m generalizing lo with
  | nil => exact Memory.read_put_same v rfl
  | cons e m ih =>
    obtain ⟨k, b⟩ := e
    simp only [Memory.wfFrom, Bool.and_eq_true, decide_eq_true_eq] at h
    obtain ⟨⟨⟨h1, h2⟩, h3⟩, h4⟩ := h
    unfold Memory.write
    split
    · refine Memory.read_put_same v ?_
      simp only [Memory.wfFrom, Bool.and_eq_true, decide_eq_true_eq]
      exact ⟨⟨⟨by omega, h2⟩, h3⟩, h4⟩
    · split
      · subst_vars; exact Memory.read_put_same v h4
      · have hk : k ≠ a := by omega
        simp only [Memory.read, hk, if_false]
        exact ih h4

theorem Memory.read_write_other {m : Memory} {a a' : Nat} (v : Byte) (ha : a' ≠ a) :
    Memory.read (Memory.write m a v) a' = Memory.read m a' := by
  induction m with
  | nil => exact Memory.read_put_other v ha
  | cons e m ih =>
    obtain ⟨k, b⟩ := e
    unfold Memory.write
    split
    · exact Memory.read_put_other v ha
    · split
      · subst_vars
        rw [Memory.read_put_other v ha]; simp [Memory.read, Ne.symm ha]
      · simp only [Memory.read]; split
        · rfl
        · exact ih

/-- Every write of a byte keeps the canonical form. -/
theorem Memory.wf_write {m : Memory} (a : Addr) (v : Byte) (h : m.wf = true) :
    (Memory.write m a.toNat v).wf = true :=
  Memory.wfFrom_write v h (Nat.zero_le _) (by have := a.isLt; simp only [Config.memSize]; omega)

theorem wf_memWrite {s : State} (a : Addr) (v : Byte) (h : s.mem.wf = true) :
    (memWrite a v s).mem.wf = true :=
  Memory.wf_write a v h

theorem memRead_memWrite_same {s : State} (a : Addr) (v : Byte) (h : s.mem.wf = true) :
    memRead a (memWrite a v s) = v :=
  Memory.read_write_same v h

theorem memRead_memWrite_other {s : State} {a b : Addr} (v : Byte) (hb : b ≠ a) :
    memRead b (memWrite a v s) = memRead b s :=
  Memory.read_write_other v (by rwa [ne_eq, BitVec.toNat_inj])

@[simp] theorem memRead_raiseDidWrite (a : Addr) (b : Bool) (s : State) :
    memRead a (raiseDidWrite b s) = memRead a s := rfl

@[simp] theorem memRead_writeReg (a : Addr) (r : Reg) (d : Word) (s : State) :
    memRead a (writeReg r d s) = memRead a s := by cases r <;> rfl

@[simp] theorem memRead_setP (a : Addr) (v : Byte) (s : State) :
    memRead a (setP v s) = memRead a s := rfl

/-- The memory at power-on is canonical. -/
theorem wf_reset : State.reset.mem.wf = true := rfl

end Sys2Proof.Machine
end

