-- ==== Sys2Proof/Laws/Ops.lean ====
section
/-! SUPPORT. Once for each shared operation, everything it can do: the operands' bits, the registers,
the flags, the byte push and the byte pull, and how a command completes. -/

namespace Sys2Proof.Machine

/-! ## Operands -/

@[simp] theorem loByte_getLsbD (w : Word) (i : Nat) : (loByte w).getLsbD i = (decide (i < 8) && w.getLsbD i) := by
  simp [loByte]

@[simp] theorem hiByte_getLsbD (w : Word) (i : Nat) : (hiByte w).getLsbD i = (decide (i < 8) && w.getLsbD (8 + i)) := by
  simp [hiByte]

@[simp] theorem zext16_getLsbD (b : Byte) (i : Nat) : (zext16 b).getLsbD i = b.getLsbD i := by
  simp only [zext16, BitVec.getLsbD_setWidth]
  by_cases h : i < 16
  · simp [h]
  · simp [h, BitVec.getLsbD_of_ge b i (by omega)]

@[simp] theorem loByte_getElem (w : Word) (i : Nat) (h : i < 8) : (loByte w)[i] = w.getLsbD i := by
  simp [loByte]

@[simp] theorem hiByte_getElem (w : Word) (i : Nat) (h : i < 8) : (hiByte w)[i] = w.getLsbD (8 + i) := by
  simp [hiByte]

@[simp] theorem zext16_getElem (b : Byte) (i : Nat) (h : i < 16) : (zext16 b)[i] = b.getLsbD i := by
  rw [← BitVec.getLsbD_eq_getElem, zext16_getLsbD]

@[simp] theorem loByte_zext16 (b : Byte) : loByte (zext16 b) = b := by
  ext i hi
  rw [loByte_getElem, zext16_getLsbD, BitVec.getLsbD_eq_getElem]

@[simp] theorem joinBytes_hiByte_loByte (w : Word) : joinBytes (hiByte w) (loByte w) = w := by
  ext i hi
  simp only [joinBytes, hiByte, loByte, BitVec.getElem_or, BitVec.getElem_shiftLeft, BitVec.getElem_setWidth,
    BitVec.getLsbD_extractLsb']
  grind

/-- `{hi, lo} = hi * 256 + lo` (00_scope.md R10). -/
theorem joinBytes_toNat (hi lo : Byte) : (joinBytes hi lo).toNat = hi.toNat * 256 + lo.toNat := by
  have hlo := lo.isLt
  have happ : joinBytes hi lo = (hi ++ lo : BitVec 16) := by
    apply BitVec.eq_of_getLsbD_eq
    intro i hi'
    simp only [joinBytes, BitVec.getLsbD_or, BitVec.getLsbD_shiftLeft, BitVec.getLsbD_setWidth,
      BitVec.getLsbD_append]
    split <;> simp_all
    grind
  rw [happ, BitVec.toNat_append, Nat.shiftLeft_eq, Nat.mul_comm, ← Nat.two_pow_add_eq_or_of_lt hlo]

theorem zext16_inj {a b : Byte} : zext16 a = zext16 b ↔ a = b :=
  ⟨fun h => by rw [← loByte_zext16 a, h, loByte_zext16], fun h => by rw [h]⟩

theorem stackAddr_toNat (sp : Byte) : (stackAddr sp).toNat = 0x100 + sp.toNat := by
  have := sp.isLt
  simp only [stackAddr, Config.stackBase, zext16, BitVec.toNat_add, BitVec.toNat_setWidth]
  simp only [BitVec.reduceToNat]
  omega

theorem stackAddr_inj {a b : Byte} : stackAddr a = stackAddr b ↔ a = b := by
  rw [← BitVec.toNat_inj, stackAddr_toNat, stackAddr_toNat, ← BitVec.toNat_inj]
  omega

@[simp] theorem spUp_spDown (sp : Byte) : spUp (spDown sp) = sp := by
  simp [spUp, spDown]

@[simp] theorem spDown_spUp (sp : Byte) : spDown (spUp sp) = sp := by
  simp [spUp, spDown]

theorem spDown_toNat (sp : Byte) : (spDown sp).toNat = (sp.toNat + 255) % 256 := by
  have := sp.isLt
  simp only [spDown, BitVec.toNat_sub, BitVec.reduceToNat]
  omega

theorem spUp_toNat (sp : Byte) : (spUp sp).toNat = (sp.toNat + 1) % 256 := by
  simp only [spUp, BitVec.toNat_add, BitVec.reduceToNat]

theorem spDown_ne (sp : Byte) : spDown sp ≠ sp := by
  simp only [spDown, ne_eq, ← BitVec.toNat_inj, BitVec.toNat_sub]
  have := sp.isLt
  simp only [BitVec.reduceToNat]
  omega

theorem spUp_ne (sp : Byte) : spUp sp ≠ sp := by
  simp only [spUp, ne_eq, ← BitVec.toNat_inj, BitVec.toNat_add]
  have := sp.isLt
  simp only [BitVec.reduceToNat]
  omega

/-! ## Registers and flags -/

theorem readReg_writeReg_same (r : Reg) (d : Word) (s : State) :
    readReg r (writeReg r d s) =
      match r with
      | .pc => d
      | .p  => zext16 (forceUnused (loByte d))
      | .a | .x | .y | .s => zext16 (loByte d) := by
  cases r <;> rfl

theorem readReg_writeReg_other {r r' : Reg} (d : Word) (s : State) (h : r' ≠ r) :
    readReg r' (writeReg r d s) = readReg r' s := by
  cases r <;> cases r' <;> first | rfl | exact absurd rfl h

theorem readReg_setP_other {r : Reg} (v : Byte) (s : State) (h : r ≠ .p) :
    readReg r (setP v s) = readReg r s := by
  cases r <;> first | rfl | exact absurd rfl h

theorem forceUnused_getLsbD (v : Byte) {i : Nat} (hi : i < 8) :
    (forceUnused v).getLsbD i = (decide (i = 5) || v.getLsbD i) := by
  have : i = 0 ∨ i = 1 ∨ i = 2 ∨ i = 3 ∨ i = 4 ∨ i = 5 ∨ i = 6 ∨ i = 7 := by omega
  rcases this with h | h | h | h | h | h | h | h <;> subst h <;> simp [forceUnused]

theorem setFlag_getLsbD (f : Flag) (p : Byte) {i : Nat} (hi : i < 8) :
    (setFlag f p).getLsbD i = (decide (i = flagBit f) || p.getLsbD i) := by
  have : i = 0 ∨ i = 1 ∨ i = 2 ∨ i = 3 ∨ i = 4 ∨ i = 5 ∨ i = 6 ∨ i = 7 := by omega
  cases f <;> rcases this with h | h | h | h | h | h | h | h <;> subst h <;>
    simp [setFlag, flagMask, flagBit]

theorem clearFlag_getLsbD (f : Flag) (p : Byte) {i : Nat} (hi : i < 8) :
    (clearFlag f p).getLsbD i = (decide (i = 5) || (decide (i ≠ flagBit f) && p.getLsbD i)) := by
  rw [clearFlag, forceUnused_getLsbD _ hi]
  have : i = 0 ∨ i = 1 ∨ i = 2 ∨ i = 3 ∨ i = 4 ∨ i = 5 ∨ i = 6 ∨ i = 7 := by omega
  cases f <;> rcases this with h | h | h | h | h | h | h | h <;> subst h <;>
    simp [flagMask, flagBit]

/-! ## The byte push and the byte pull -/

theorem pushByte_fst (sets : Bool) (sp v : Byte) (s : State) : (pushByte sets sp v s).1 = spDown sp := rfl

theorem pushByte_snd (sets : Bool) (sp v : Byte) (s : State) :
    (pushByte sets sp v s).2 = raiseDidWrite sets (memWrite (stackAddr sp) v s) := rfl

theorem pullByte_eq (sp : Byte) (s : State) : pullByte sp s = (spUp sp, memRead (stackAddr (spUp sp)) s) := rfl

/-! ## Completing -/

theorem complete_eq_next {r : Response} {s t : State} :
    complete r s = .next t ↔ t = { s with rsp := some r } := by
  simp only [complete, Host.Outcome.next.injEq]
  exact eq_comm

theorem complete_ne_fault {r : Response} {s : State} {e : Fault} : complete r s ≠ .fault e := nofun

theorem complete_ne_refused {r : Response} {s : State} {e : Refusal} : complete r s ≠ .refused e := nofun

end Sys2Proof.Machine
end

