-- ==== Sys2Proof/Laws/Commands.lean ====
section
/-! SUPPORT. One equation per command: the state it answers with, in the words of the shared operations.
Later proofs cite these and never unfold a meaning. -/

namespace Sys2Proof.Machine

variable (s : State) (addr : Addr) (spv : Byte) (data : Word) (r : Reg) (f : Flag)

theorem exec_memRd : exec (.memRd addr) s =
    .next { s with rsp := some ⟨zext16 (memRead addr s), 0#8, false⟩ } := rfl

theorem exec_memWr : exec (.memWr addr data) s =
    .next { raiseDidWrite true (memWrite addr (loByte data) s) with rsp := some ⟨0#16, 0#8, false⟩ } := rfl

theorem exec_pushB : exec (.pushB spv data) s =
    .next { raiseDidWrite Config.pushSetsDidWrite (memWrite (stackAddr spv) (loByte data) s) with
      rsp := some ⟨0#16, spDown spv, false⟩ } := rfl

theorem exec_pushW : exec (.pushW spv data) s =
    .next { raiseDidWrite Config.pushSetsDidWrite (memWrite (stackAddr (spDown spv)) (loByte data)
        (raiseDidWrite Config.pushSetsDidWrite (memWrite (stackAddr spv) (hiByte data) s))) with
      rsp := some ⟨0#16, spDown (spDown spv), false⟩ } := rfl

theorem exec_pullB : exec (.pullB spv) s =
    .next { s with rsp := some ⟨zext16 (memRead (stackAddr (spUp spv)) s), spUp spv, false⟩ } := rfl

theorem exec_pullW : exec (.pullW spv) s =
    .next { s with rsp := some ⟨joinBytes (memRead (stackAddr (spUp (spUp spv))) s)
      (memRead (stackAddr (spUp spv)) s), spUp (spUp spv), false⟩ } := rfl

theorem exec_regRd : exec (.regRd r) s =
    .next { s with rsp := some ⟨readReg r s, 0#8, false⟩ } := rfl

theorem exec_regWr : exec (.regWr r data) s =
    .next { writeReg r data s with rsp := some ⟨0#16, 0#8, false⟩ } := rfl

theorem exec_flagTst : exec (.flagTst f) s =
    .next { s with rsp := some ⟨zextBit (testFlag f s.rf.p), 0#8, false⟩ } := rfl

theorem exec_flagSet : exec (.flagSet f) s =
    .next { setP (setFlag f s.rf.p) s with rsp := some ⟨0#16, 0#8, false⟩ } := rfl

theorem exec_flagClr : exec (.flagClr f) s =
    .next { setP (clearFlag f s.rf.p) s with rsp := some ⟨0#16, 0#8, false⟩ } := rfl

theorem exec_diagRd : exec .diagRd s =
    .next { s with rsp := some ⟨zextBit s.didWrite, 0#8, false⟩ } := rfl

/-- Everything a step can do: nothing without a command, the command of a legal word, the fault of an
illegal one. -/
theorem step_cases :
    (s.cmds = [] ∧ step s = .next s) ∨
    (∃ w rest i, s.cmds = w :: rest ∧ decode w = .ok i ∧ step s = exec i { s with cmds := rest }) ∨
    (∃ w rest c, s.cmds = w :: rest ∧ decode w = .error c ∧ step s = .fault (.illegalCommand c)) := by
  unfold step
  cases hc : s.cmds with
  | nil => exact .inl ⟨rfl, rfl⟩
  | cons w rest =>
    cases hd : decode w with
    | ok i => exact .inr (.inl ⟨w, rest, i, rfl, hd, by simp only [hd]⟩)
    | error c => exact .inr (.inr ⟨w, rest, c, rfl, hd, by simp only [hd, raiseIllegal]⟩)

@[simp] theorem memRead_withRsp (a : Addr) (p : Option Response) :
    memRead a { s with rsp := p } = memRead a s := rfl

@[simp] theorem readReg_withRsp (q : Reg) (p : Option Response) :
    readReg q { s with rsp := p } = readReg q s := by cases q <;> rfl

@[simp] theorem memRead_withCmds (a : Addr) (ws : List CommandWord) :
    memRead a { s with cmds := ws } = memRead a s := rfl

@[simp] theorem readReg_withCmds (q : Reg) (ws : List CommandWord) :
    readReg q { s with cmds := ws } = readReg q s := by cases q <;> rfl

end Sys2Proof.Machine
end

