-- ==== Sys2Proof/Laws/PerInstr.lean ====
section
/-! SUPPORT. What holds of every command as syntax, one lemma per constructor. -/

namespace Sys2Proof.Laws.EncodesLegal

/-- The command's word has legal fields (30_encoding.md R51, R57), and the row of
spec/opcode_table.json under the command's mnemonic is the one its word matches. -/
def Statement (i : Instr) : Prop :=
  (Fields.ofWord (encode i)).wf = true ∧
    ∃ row ∈ opcodeTable, row.mnemonic = i.mnemonic ∧
      (row.bits >>> 44).setWidth 4 = (Fields.ofWord (encode i)).op ∧ row.mask = 0xF00000000000#48

/-- Every command, by its constructor and, where it names a register or a flag, by that name. -/
theorem statement_holds (i : Instr) : Statement i := by
  rcases i with _ | _ | _ | _ | _ | _ | r | r | f | f | f | _
  case regRd | regWr => cases r <;> simp [Statement, encode, fieldsOf, Instr.mnemonic, opcodeTable, Fields.wf,
    Fields.opLegal, Fields.regSelLegal, Fields.flagSelLegal, selOfReg]
  case flagTst | flagSet | flagClr => cases f <;> simp [Statement, encode, fieldsOf, Instr.mnemonic, opcodeTable,
    Fields.wf, Fields.opLegal, Fields.regSelLegal, Fields.flagSelLegal, selOfFlag]
  all_goals simp [Statement, encode, fieldsOf, Instr.mnemonic, opcodeTable, Fields.wf, Fields.opLegal,
    Fields.regSelLegal, Fields.flagSelLegal]

theorem memRd (addr : Addr) : Statement (.memRd addr) := statement_holds _
theorem memWr (addr : Addr) (data : Word) : Statement (.memWr addr data) := statement_holds _
theorem pushB (spv : Byte) (data : Word) : Statement (.pushB spv data) := statement_holds _
theorem pushW (spv : Byte) (data : Word) : Statement (.pushW spv data) := statement_holds _
theorem pullB (spv : Byte) : Statement (.pullB spv) := statement_holds _
theorem pullW (spv : Byte) : Statement (.pullW spv) := statement_holds _
theorem regRd (r : Reg) : Statement (.regRd r) := statement_holds _
theorem regWr (r : Reg) (data : Word) : Statement (.regWr r data) := statement_holds _
theorem flagTst (f : Flag) : Statement (.flagTst f) := statement_holds _
theorem flagSet (f : Flag) : Statement (.flagSet f) := statement_holds _
theorem flagClr (f : Flag) : Statement (.flagClr f) := statement_holds _
theorem diagRd : Statement .diagRd := statement_holds _

end Sys2Proof.Laws.EncodesLegal
end

