-- ==== Sys2Proof/Laws/Run.lean ====
section
/-! SUPPORT. Runs: one step and then the rest, and the induction over a run, packaged once. -/

namespace Sys2Proof.Machine

@[simp] theorem run_zero (s : State) : run 0 s = .next s := rfl

theorem run_succ_of_next {k : Nat} {s t : State} (h : step s = .next t) : run (k + 1) s = run k t := by
  have hs : Sys2Proof.core.step s = .next t := h
  have hr := Host.Core.run.eq_2 Sys2Proof.core s k
  rw [hs] at hr
  exact hr

theorem run_succ_of_fault {k : Nat} {s : State} {e : Fault} (h : step s = .fault e) :
    run (k + 1) s = .fault e := by
  have hs : Sys2Proof.core.step s = .fault e := h
  have hr := Host.Core.run.eq_2 Sys2Proof.core s k
  rw [hs] at hr
  exact hr

theorem run_succ_of_refused {k : Nat} {s : State} {e : Refusal} (h : step s = .refused e) :
    run (k + 1) s = .refused e := by
  have hs : Sys2Proof.core.step s = .refused e := h
  have hr := Host.Core.run.eq_2 Sys2Proof.core s k
  rw [hs] at hr
  exact hr

/-- What every step keeps, every run keeps. -/
theorem run_keeps {P : State → Prop} (hP : ∀ s t, P s → step s = .next t → P t) {k : Nat} {s t : State}
    (hs : P s) (h : run k s = .next t) : P t := by
  induction k generalizing s with
  | zero => cases h; exact hs
  | succ k ih =>
    cases hst : step s with
    | next u => rw [run_succ_of_next hst] at h; exact ih (hP s u hs hst) h
    | fault e => rw [run_succ_of_fault hst] at h; cases h
    | refused e => rw [run_succ_of_refused hst] at h; cases h

end Sys2Proof.Machine
end

