-- ==== Sys2Proof/Laws/Text.lean ====
section
/-! SUPPORT. The hex digits of a value read back as the value, and a fixed beginning is skipped. -/

namespace Sys2Proof.Machine

theorem hexValue_hexDigit (n : Nat) : hexValue (hexDigit n) = some (n % 16) := by
  have digits : ∀ m : Fin 16, hexValue (hexDigit m.val) = some m.val := by decide
  have h := digits ⟨n % 16, Nat.mod_lt _ (by omega)⟩
  simpa [hexDigit, Nat.mod_mod] using h

theorem takeHex_hexWord (w : Word) (rest : List Char) :
    takeHex 4 0 (hexWord w ++ rest) = some (w.toNat, rest) := by
  have := w.isLt
  simp only [hexWord, List.cons_append, List.nil_append, takeHex, hexValue_hexDigit]
  congr 2
  omega

theorem takeHex_hexByte (b : Byte) (rest : List Char) :
    takeHex 2 0 (hexByte b ++ rest) = some (b.toNat, rest) := by
  have := b.isLt
  simp only [hexByte, List.cons_append, List.nil_append, takeHex, hexValue_hexDigit]
  congr 2
  omega

theorem takeWord_hexWord (w : Word) (rest : List Char) : takeWord (hexWord w ++ rest) = some (w, rest) := by
  simp [takeWord, takeHex_hexWord]

theorem takeByte_hexByte (b : Byte) (rest : List Char) : takeByte (hexByte b ++ rest) = some (b, rest) := by
  simp [takeByte, takeHex_hexByte]

theorem skip_append (start rest : List Char) : skip start (start ++ rest) = some rest := by
  induction start with
  | nil => rfl
  | cons c cs ih => simpa [skip] using ih

end Sys2Proof.Machine
end

