-- ==== Sys2Proof/Tests/Slice0.lean ====
section
/-! SUPPORT. The model's own tests. Expected values are the spec's: the vectors of
spec/95_test_vectors.md and words written out from 30_encoding.md R49. Then a witness for every
statement with hypotheses. -/

namespace Sys2Proof.Tests

open Sys2Proof.Machine

/-! ## The checks of WellFormed.lean refuse -/

theorem test_wf_refuses_op_0 : Fields.opLegal ⟨0x0#4, 0#4, 0#8, 0#16, 0#16⟩ = false := by decide
theorem test_wf_refuses_op_D : Fields.opLegal ⟨0xD#4, 0#4, 0#8, 0#16, 0#16⟩ = false := by decide
theorem test_wf_refuses_op_E : Fields.opLegal ⟨0xE#4, 0#4, 0#8, 0#16, 0#16⟩ = false := by decide
theorem test_wf_refuses_op_F : Fields.opLegal ⟨0xF#4, 0#4, 0#8, 0#16, 0#16⟩ = false := by decide
theorem test_wf_refuses_register_6 : Fields.regSelLegal ⟨0x7#4, 0x6#4, 0#8, 0#16, 0#16⟩ = false ∧
    Fields.regSelLegal ⟨0x8#4, 0xF#4, 0#8, 0#16, 0xFF#16⟩ = false := by decide
theorem test_wf_refuses_flag_8 : Fields.flagSelLegal ⟨0x9#4, 0x8#4, 0#8, 0#16, 0#16⟩ = false ∧
    Fields.flagSelLegal ⟨0xA#4, 0xF#4, 0#8, 0#16, 0#16⟩ = false ∧
    Fields.flagSelLegal ⟨0xB#4, 0x8#4, 0#8, 0#16, 0#16⟩ = false := by decide
theorem test_wf_takes_the_last_register_and_flag : Fields.wf ⟨0x8#4, 0x5#4, 0#8, 0#16, 0#16⟩ = true ∧
    Fields.wf ⟨0xB#4, 0x7#4, 0#8, 0#16, 0#16⟩ = true := by decide
theorem test_wf_ignores_sel_elsewhere : Fields.wf ⟨0x1#4, 0xF#4, 0xFF#8, 0x8000#16, 0xFFFF#16⟩ = true := by decide

/-! ## Decoding words written out bit by bit: OP, SEL, SPV, ADDR, DATA -/

/-- `MEM_RD $8000`, `MEM_WR $8001, #$42`, `DIAG_RD` (95_test_vectors.md P5). -/
theorem test_decode_memory_words :
    decode 0b0001_0000_00000000_1000000000000000_0000000000000000#48 = .ok (.memRd 0x8000#16) ∧
    decode 0b0010_0000_00000000_1000000000000001_0000000001000010#48 = .ok (.memWr 0x8001#16 0x42#16) ∧
    decode 0b1100_0000_00000000_0000000000000000_0000000000000000#48 = .ok .diagRd := by decide

/-- `PUSH_B $FB, #$30`, `PUSH_W $FD, #$8002`, `PULL_B $FA`, `PULL_W $FB` (95_test_vectors.md P4). -/
theorem test_decode_stack_words :
    decode 0b0011_0000_11111011_0000000000000000_0000000000110000#48 = .ok (.pushB 0xFB#8 0x30#16) ∧
    decode 0b0100_0000_11111101_0000000000000000_1000000000000010#48 = .ok (.pushW 0xFD#8 0x8002#16) ∧
    decode 0b0101_0000_11111010_0000000000000000_0000000000000000#48 = .ok (.pullB 0xFA#8) ∧
    decode 0b0110_0000_11111011_0000000000000000_0000000000000000#48 = .ok (.pullW 0xFB#8) := by decide

/-- `REG_RD Y`, `REG_WR S, #$FB` (95_test_vectors.md 2.1, P1). -/
theorem test_decode_register_words :
    decode 0b0111_0011_00000000_0000000000000000_0000000000000000#48 = .ok (.regRd .y) ∧
    decode 0b1000_0100_00000000_0000000000000000_0000000011111011#48 = .ok (.regWr .s 0xFB#16) := by decide

/-- `FLAG_TST N`, `FLAG_SET I`, `FLAG_CLR B` (95_test_vectors.md P3, P4). -/
theorem test_decode_flag_words :
    decode 0b1001_0111_00000000_0000000000000000_0000000000000000#48 = .ok (.flagTst .n) ∧
    decode 0b1010_0010_00000000_0000000000000000_0000000000000000#48 = .ok (.flagSet .i) ∧
    decode 0b1011_0100_00000000_0000000000000000_0000000000000000#48 = .ok (.flagClr .b) := by decide

/-- The words of 95_test_vectors.md 2.5 that name no command. -/
theorem test_decode_rejects_by_cause :
    decode 0x000000000000#48 = .error .badOp ∧ decode 0xD00000000000#48 = .error .badOp ∧
    decode 0xE00000000000#48 = .error .badOp ∧ decode 0xFFFFFFFFFFFF#48 = .error .badOp ∧
    decode 0x760000000000#48 = .error .badSel ∧ decode 0x8F00000000FF#48 = .error .badSel ∧
    decode 0x980000000000#48 = .error .badSel ∧ decode 0xAF0000000000#48 = .error .badSel ∧
    decode 0xB80000000000#48 = .error .badSel := by decide

theorem test_encode_writes_zero_elsewhere : encode (.pushW 0xFD#8 0x1234#16) = 0x40FD00001234#48 ∧
    encode (.regWr .p 0xC3#16) = 0x8500000000C3#48 := by decide

theorem test_opcode_rows_are_disjoint :
    opcodeTable.Pairwise (fun q r => q.bits &&& r.mask ≠ r.bits &&& q.mask) := by decide

theorem test_decodeTableWord : decodeTableWord 48 0xA70000000000 = some (.flagSet .n) ∧
    decodeTableWord 48 0x760000000000 = none ∧ decodeTableWord 8 0x30 = none := by decide

/-! ## One step on small states -/

/-- Power-on, but for the flags byte. -/
def withP (p : Byte) : State := { State.reset with rf := { RegFile.reset with p := p } }

/-- Power-on, but for the listed memory bytes. -/
def withMem (m : Memory) : State := { State.reset with mem := m }

def rspOf : Host.Outcome State Fault Refusal → Option Response
  | .next t => t.rsp
  | _ => none

def rfOf : Host.Outcome State Fault Refusal → Option RegFile
  | .next t => some t.rf
  | _ => none

def pOf : Host.Outcome State Fault Refusal → Option Byte
  | .next t => some t.rf.p
  | _ => none

def byteOf (a : Addr) : Host.Outcome State Fault Refusal → Option Byte
  | .next t => some (memRead a t)
  | _ => none

def didWriteOf : Host.Outcome State Fault Refusal → Option Bool
  | .next t => some t.didWrite
  | _ => none

/-- What a step answers to a word after power-on. -/
def first (w : CommandWord) : Host.Outcome State Fault Refusal := step (State.reset.issuing [w])

/-- 95_test_vectors.md 2.1. -/
theorem test_regRd_vectors : rspOf (first 0x700000000000#48) = some ⟨0x8000#16, 0#8, false⟩ ∧
    rspOf (first 0x740000000000#48) = some ⟨0x00FD#16, 0#8, false⟩ ∧
    rspOf (first 0x750000000000#48) = some ⟨0x0020#16, 0#8, false⟩ := by decide

theorem test_regWr_vectors : rfOf (first 0x80000000FFFF#48) = some { RegFile.reset with pc := 0xFFFF#16 } ∧
    rfOf (first 0x8100000012FF#48) = some { RegFile.reset with a := 0xFF#8 } ∧
    rfOf (first 0x84000000AB00#48) = some { RegFile.reset with s := 0x00#8 } := by decide

theorem test_regWr_p_keeps_unused : pOf (first 0x850000000000#48) = some 0x20#8 ∧
    pOf (first 0x8500000000C3#48) = some 0xE3#8 ∧ pOf (first 0x850000001234#48) = some 0x34#8 := by decide

/-- 95_test_vectors.md 2.2, with `P = 0xA1`. -/
theorem test_flagTst_vectors : rspOf (exec (.flagTst .c) (withP 0xA1#8)) = some ⟨1#16, 0#8, false⟩ ∧
    rspOf (exec (.flagTst .v) (withP 0xA1#8)) = some ⟨0#16, 0#8, false⟩ ∧
    rspOf (exec (.flagTst .n) (withP 0xA1#8)) = some ⟨1#16, 0#8, false⟩ := by decide

theorem test_flagSet_vectors : pOf (first 0xA00000000000#48) = some 0x21#8 ∧
    pOf (first 0xA30000000000#48) = some 0x28#8 ∧ pOf (first 0xA50000000000#48) = some 0x20#8 ∧
    pOf (first 0xA70000000000#48) = some 0xA0#8 := by decide

/-- 95_test_vectors.md 2.2, with `P = 0xFF`. -/
theorem test_flagClr_vectors : pOf (exec (.flagClr .z) (withP 0xFF#8)) = some 0xFD#8 ∧
    pOf (exec (.flagClr .b) (withP 0xFF#8)) = some 0xEF#8 ∧
    pOf (exec (.flagClr .u) (withP 0xFF#8)) = some 0xFF#8 ∧
    pOf (exec (.flagClr .n) (withP 0xFF#8)) = some 0x7F#8 := by decide

/-- 95_test_vectors.md 2.3: the edges of the power-on content. -/
theorem test_memRd_vectors : rspOf (first 0x10007FFF0000#48) = some ⟨0x0000#16, 0#8, false⟩ ∧
    rspOf (first 0x100080000000#48) = some ⟨0x00FE#16, 0#8, false⟩ ∧
    rspOf (first 0x1000FFFF0000#48) = some ⟨0x00FE#16, 0#8, false⟩ := by decide

theorem test_memWr_takes_the_low_byte : byteOf 0x0010#16 (first 0x20000010ABCD#48) = some 0xCD#8 ∧
    didWriteOf (first 0x20000010ABCD#48) = some true := by decide

theorem test_memWr_of_the_same_byte_sets_didWrite : didWriteOf (first 0x200000100000#48) = some true ∧
    byteOf 0x8001#16 (first 0x2000800000A9#48) = some 0xFE#8 := by decide

theorem test_diagRd_vectors : rspOf (first 0xCFFFFFFFFFFF#48) = some ⟨0#16, 0#8, false⟩ ∧
    rspOf (exec .diagRd { State.reset with didWrite := true }) = some ⟨1#16, 0#8, false⟩ := by decide

/-- 95_test_vectors.md 2.4: a push at 0x00 wraps, and the upper data byte is ignored. -/
theorem test_pushB_vectors : byteOf 0x0100#16 (first 0x30000000005A#48) = some 0x5A#8 ∧
    rspOf (first 0x30000000005A#48) = some ⟨0#16, 0xFF#8, false⟩ ∧
    byteOf 0x01FD#16 (first 0x30FD0000AB42#48) = some 0x42#8 := by decide

/-- 95_test_vectors.md 2.4: a word pushed at 0x00 lies at both ends of the stack page. -/
theorem test_pushW_vectors : byteOf 0x0100#16 (first 0x40000000A1B2#48) = some 0xA1#8 ∧
    byteOf 0x01FF#16 (first 0x40000000A1B2#48) = some 0xB2#8 ∧
    rspOf (first 0x40000000A1B2#48) = some ⟨0#16, 0xFE#8, false⟩ := by decide

/-- The ends of the stack page filled as 95_test_vectors.md 2.4 fills it; 0x0100 holds 0x00. -/
def stackEnds : State := withMem [(0x0101, 0x01#8), (0x0102, 0x02#8), (0x01FC, 0xFC#8), (0x01FD, 0xFD#8), (0x01FF, 0xFF#8)]

theorem test_pullB_vectors : rspOf (exec (.pullB 0xFC#8) stackEnds) = some ⟨0x00FD#16, 0xFD#8, false⟩ ∧
    rspOf (exec (.pullB 0xFF#8) stackEnds) = some ⟨0x0000#16, 0x00#8, false⟩ ∧
    rspOf (exec (.pullB 0xFE#8) stackEnds) = some ⟨0x00FF#16, 0xFF#8, false⟩ := by decide

theorem test_pullW_vectors : rspOf (exec (.pullW 0xFB#8) stackEnds) = some ⟨0xFDFC#16, 0xFD#8, false⟩ ∧
    rspOf (exec (.pullW 0xFE#8) stackEnds) = some ⟨0x00FF#16, 0x00#8, false⟩ ∧
    rspOf (exec (.pullW 0xFF#8) stackEnds) = some ⟨0x0100#16, 0x01#8, false⟩ := by decide

/-- 95_test_vectors.md P5, for both values of `PUSH_SETS_DID_WRITE`. -/
theorem test_push_sets_didWrite_as_the_parameter_says :
    (pushByte false 0xFD#8 0x11#8 State.reset).2.didWrite = false ∧
    (pushByte true 0xFD#8 0x11#8 State.reset).2.didWrite = true := by decide

/-- 95_test_vectors.md 2.5: the response to an illegal word, and the state it leaves. -/
theorem test_illegal_word_on_the_port :
    transact 0x8F00000000FF#48 State.reset =
      ({ State.reset with rsp := some ⟨0x0002#16, 0#8, true⟩ }, ⟨0x0002#16, 0#8, true⟩) ∧
    (transact 0xFFFFFFFFFFFF#48 State.reset).2 = ⟨0x0001#16, 0#8, true⟩ := by decide

theorem test_illegal_word_faults : first 0x980000000000#48 = .fault (.illegalCommand .badSel) := rfl

theorem test_withFetchWord : rspOf (step (State.reset.withFetchWord 48 0x740000000000)) =
    some ⟨0x00FD#16, 0#8, false⟩ := by decide

/-- Writing the power-on content takes the entry out, so equal memories are equal data (log 6). -/
theorem test_memory_is_canonical :
    Memory.write (Memory.write (Memory.write [] 0x8001 0x42#8) 0x0010 0xCD#8) 0x8001 0xFE#8 = [(0x0010, 0xCD#8)] := by
  decide

/-- 95_test_vectors.md 2.6. -/
theorem test_rfEq_vectors : rfEq RegFile.reset RegFile.reset = true ∧
    rfEq RegFile.reset { RegFile.reset with pc := 0x8001#16 } = false ∧
    rfNe RegFile.reset { RegFile.reset with x := 0x01#8 } = true := by decide

theorem test_rfFormat_vector : rfFormat ⟨0xC000#16, 0x7F#8, 0x01#8, 0xFF#8, 0x00#8, 0xE3#8⟩ =
    "PC: $C000  A: $7F  X: $01  Y: $FF  S: $00  P: $E3" := by decide

/-- 95_test_vectors.md P1, steps 1 to 3. -/
theorem test_pushsW : (runPseudo (.pushsW 0x1234#16) State.reset).1.rf.s = 0xFB#8 ∧
    memRead 0x01FD#16 (runPseudo (.pushsW 0x1234#16) State.reset).1 = 0x12#8 := by decide

theorem test_assembler_refuses_other_text : assemble "PUSH_W $FD #$1234" = none ∧
    assemble "REG_WR A, #$0012" = none ∧ assemble "FLAG_SET Q" = none := by decide

theorem test_region_edges : Region.zeroPage.contains 0x00FF#16 = true ∧ Region.stack.contains 0x0100#16 = true ∧
    Region.ram.contains 0x7FFF#16 = true ∧ Region.rom.contains 0xFFFF#16 = true := by decide

/-! ## Witnesses: a concrete state and operands that meet all hypotheses of a statement together -/

/-- A state with listed memory and `did_write` set. -/
def small : State := { State.reset with mem := [(0x0010, 0xCD#8), (0x8000, 0xA9#8)], didWrite := true }

theorem witness_wf : State.reset.mem.wf = true ∧ small.mem.wf = true ∧ stackEnds.mem.wf = true := by decide

theorem witness_Inv : State.reset.Inv ∧ small.Inv := ⟨⟨rfl, rfl⟩, ⟨rfl, rfl⟩⟩

theorem witness_SelectCodesNameRegistersAndFlags : 0x6 ≤ (0x6#4).toNat ∧ 0x6 ≤ (0xF#4).toNat ∧
    0x8 ≤ (0x8#4).toNat ∧ 0x8 ≤ (0xF#4).toNat ∧ flagOfSel 0x7#4 = some .n := by decide

theorem witness_DecodedCommandKeepsTheBitsItReads :
    decode 0x1FFF8000FFFF#48 = .ok (.memRd 0x8000#16) ∧
    (⟨"MEM_RD", 0x100000000000#48, 0xF00000000000#48⟩ : OpcodeRow) ∈ opcodeTable := by decide

theorem witness_IgnoredBitsDoNotMatter :
    0x1FFF8000FFFF#48 &&& readMask 0x1FFF8000FFFF#48 = 0x100080000000#48 &&& readMask 0x1FFF8000FFFF#48 := by decide

theorem witness_IllegalOpFaultsAndChangesNothing :
    (Fields.ofWord 0x000000000000#48).op ∈ [0x0#4, 0xD#4, 0xE#4, 0xF#4] ∧
    (Fields.ofWord 0xDFFFFFFFFFFF#48).op ∈ [0x0#4, 0xD#4, 0xE#4, 0xF#4] ∧
    (Fields.ofWord 0xE00000000000#48).op ∈ [0x0#4, 0xD#4, 0xE#4, 0xF#4] ∧
    (Fields.ofWord 0xFFFFFFFFFFFF#48).op ∈ [0x0#4, 0xD#4, 0xE#4, 0xF#4] := by decide

theorem witness_IllegalSelFaultsAndChangesNothing :
    ((Fields.ofWord 0x760000000000#48).op ∈ [0x7#4, 0x8#4] ∧ 0x5 < (Fields.ofWord 0x760000000000#48).sel.toNat) ∧
    ((Fields.ofWord 0x8F0000000000#48).op ∈ [0x7#4, 0x8#4] ∧ 0x5 < (Fields.ofWord 0x8F0000000000#48).sel.toNat) ∧
    ((Fields.ofWord 0x980000000000#48).op ∈ [0x9#4, 0xA#4, 0xB#4] ∧ 0x7 < (Fields.ofWord 0x980000000000#48).sel.toNat) ∧
    ((Fields.ofWord 0xAF0000000000#48).op ∈ [0x9#4, 0xA#4, 0xB#4] ∧ 0x7 < (Fields.ofWord 0xAF0000000000#48).sel.toNat) ∧
    ((Fields.ofWord 0xB80000000000#48).op ∈ [0x9#4, 0xA#4, 0xB#4] ∧ 0x7 < (Fields.ofWord 0xB80000000000#48).sel.toNat) := by
  decide

/-- The clauses of `RegRdAnswersTheRegister` and `RegWrWritesTheRegister` on words, at the last legal and the
first illegal `SEL`. -/
theorem witness_RegWords :
    (Fields.ofWord 0x750000000000#48).op = 0x7#4 ∧ (Fields.ofWord 0x750000000000#48).sel = selOfReg .p ∧
    (Fields.ofWord 0x760000000000#48).op = 0x7#4 ∧ 0x5 < (Fields.ofWord 0x760000000000#48).sel.toNat ∧
    (Fields.ofWord 0x850000000000#48).op = 0x8#4 ∧ (Fields.ofWord 0x850000000000#48).sel = selOfReg .p ∧
    (Fields.ofWord 0x860000000000#48).op = 0x8#4 ∧ 0x5 < (Fields.ofWord 0x860000000000#48).sel.toNat := by decide

/-- The clauses of the three `FLAG_` statements on words, at the last legal and the first illegal `SEL`. -/
theorem witness_FlagWords :
    (Fields.ofWord 0x970000000000#48).op = 0x9#4 ∧ (Fields.ofWord 0x970000000000#48).sel = selOfFlag .n ∧
    (Fields.ofWord 0x980000000000#48).op = 0x9#4 ∧ 0x7 < (Fields.ofWord 0x980000000000#48).sel.toNat ∧
    (Fields.ofWord 0xA70000000000#48).op = 0xA#4 ∧ (Fields.ofWord 0xA70000000000#48).sel = selOfFlag .n ∧
    (Fields.ofWord 0xA80000000000#48).op = 0xA#4 ∧ 0x7 < (Fields.ofWord 0xA80000000000#48).sel.toNat ∧
    (Fields.ofWord 0xB70000000000#48).op = 0xB#4 ∧ (Fields.ofWord 0xB70000000000#48).sel = selOfFlag .n ∧
    (Fields.ofWord 0xB80000000000#48).op = 0xB#4 ∧ 0x7 < (Fields.ofWord 0xB80000000000#48).sel.toNat := by decide

/-- The clauses of the memory and stack statements on words. -/
theorem witness_MemoryAndStackWords :
    (Fields.ofWord 0x1000FFFF0000#48).op = 0x1#4 ∧ (Fields.ofWord 0x20000010ABCD#48).op = 0x2#4 ∧
    (Fields.ofWord 0x30000000005A#48).op = 0x3#4 ∧ (Fields.ofWord 0x40000000A1B2#48).op = 0x4#4 ∧
    (Fields.ofWord 0x50FF00000000#48).op = 0x5#4 ∧ (Fields.ofWord 0x60FF00000000#48).op = 0x6#4 ∧
    (Fields.ofWord 0xC00000000000#48).op = 0xC#4 := by decide

theorem witness_FlagSetSetsTheFlag : State.reset.rf.p.getLsbD (selOfFlag .u).toNat = true := by decide

theorem witness_FlagClrClearsTheFlag : State.reset.Inv ∧ State.reset.rf.p.getLsbD (selOfFlag .n).toNat = false :=
  ⟨⟨rfl, rfl⟩, by decide⟩

theorem witness_RegWrWritesTheRegister : (Reg.p = .p) ∧ (7 < 8) ∧ Reg.a ∉ [Reg.p] := by decide

theorem witness_MemRdAnswersTheByte : 0x8000 ≤ (0x8000#16).toNat ∧ 0x8000 ≤ (0xFFFF#16).toNat := by decide

theorem witness_MemWrStoresTheByte : small.mem.wf = true ∧ 0xFFFF#16 ∉ [0x8000#16] := by decide

theorem witness_DiagRdAnswersDidWrite : small.didWrite = true := by decide

theorem witness_BytePushAndPullStepThePointer : stackEnds.mem.wf = true ∧
    (0x0100#16).toNat = 0x0100 + ((0xFF#8).toNat + 1) % 256 := by decide

theorem witness_StackCommandsTouchTheStackPageOnly_frame :
    ∃ t, isStackCommand (.pushW 0x00#8 0xA1B2#16) = true ∧ exec (.pushW 0x00#8 0xA1B2#16) small = .next t ∧
      ((0x00FF#16).toNat < 0x0100 ∨ 0x01FF < (0x00FF#16).toNat) ∧
      ((0x0200#16).toNat < 0x0100 ∨ 0x01FF < (0x0200#16).toNat) :=
  ⟨_, rfl, rfl, by decide, by decide⟩

theorem witness_StackCommandsTouchTheStackPageOnly_agree :
    ∃ t t', isStackCommand (.pullW 0xFE#8) = true ∧
      (∀ a : Addr, 0x0100 ≤ a.toNat → a.toNat ≤ 0x01FF →
        memRead a (withMem [(0x0010, 0xCD#8)]) = memRead a State.reset) ∧
      exec (.pullW 0xFE#8) (withMem [(0x0010, 0xCD#8)]) = .next t ∧ exec (.pullW 0xFE#8) State.reset = .next t' :=
  ⟨_, _, rfl, fun a h _ => by
    have hne : ¬ 0x0010 = a.toNat := by omega
    simp [memRead, withMem, State.reset, Memory.read, hne], rfl, rfl⟩

theorem witness_StackCommandsIgnoreTheRegisterFile : isStackCommand (.pushB 0xFD#8 0x42#16) = true ∧
    isStackCommand (.pullB 0xFC#8) = true := by decide

theorem witness_RegionsPartitionTheAddressSpace : Region.rom.contains 0x8000#16 = true ∧
    Region.ram.contains 0x7FFF#16 = true := by decide

theorem witness_DidWriteOnlyRises : ∃ t, exec (.memWr 0x0010#16 0x00#16) State.reset = .next t := ⟨_, rfl⟩

theorem witness_RegistersChangeOnlyByTheirCommands :
    (∃ t, exec (.regWr .pc 0xC000#16) State.reset = .next t ∧ readReg .pc t ≠ readReg .pc State.reset) ∧
    (∃ t, exec (.flagSet .n) State.reset = .next t ∧ readReg .p t ≠ readReg .p State.reset) ∧
    (∃ t, exec (.flagClr .c) (withP 0xA1#8) = .next t ∧ readReg .p t ≠ readReg .p (withP 0xA1#8)) :=
  ⟨⟨_, rfl, by decide⟩, ⟨_, rfl, by decide⟩, ⟨_, rfl, by decide⟩⟩

theorem witness_FlagsChangeOnlyByTheirCommands :
    (∃ t, State.reset.Inv ∧ exec (.regWr .p 0x80#16) State.reset = .next t ∧
      testFlag .n t.rf.p ≠ testFlag .n State.reset.rf.p) ∧
    (∃ t, State.reset.Inv ∧ exec (.flagSet .c) State.reset = .next t ∧
      testFlag .c t.rf.p ≠ testFlag .c State.reset.rf.p) ∧
    (∃ t, (withP 0xA1#8).Inv ∧ exec (.flagClr .c) (withP 0xA1#8) = .next t ∧
      testFlag .c t.rf.p ≠ testFlag .c (withP 0xA1#8).rf.p) :=
  ⟨⟨_, ⟨rfl, rfl⟩, rfl, by decide⟩, ⟨_, ⟨rfl, rfl⟩, rfl, by decide⟩, ⟨_, ⟨rfl, rfl⟩, rfl, by decide⟩⟩

theorem witness_MemoryChangesOnlyWhereCommandsStore :
    (∃ t, exec (.memWr 0xFFFF#16 0x90#16) State.reset = .next t ∧ memRead 0xFFFF#16 t ≠ memRead 0xFFFF#16 State.reset) ∧
    (∃ t, exec (.pushB 0x00#8 0x5A#16) State.reset = .next t ∧ memRead 0x0100#16 t ≠ memRead 0x0100#16 State.reset) ∧
    (∃ t, exec (.pushW 0x00#8 0xA1B2#16) State.reset = .next t ∧
      memRead 0x0100#16 t ≠ memRead 0x0100#16 State.reset ∧ memRead 0x01FF#16 t ≠ memRead 0x01FF#16 State.reset) :=
  ⟨⟨_, rfl, by decide⟩, ⟨_, rfl, by decide⟩, ⟨_, rfl, by decide, by decide⟩⟩

theorem witness_UnproducedResponseFieldsAreZero : isStackCommand (.regRd .a) = false ∧
    (∃ sp d, Instr.pushW 0x00#8 0xA1B2#16 = .pushB sp d ∨ Instr.pushW 0x00#8 0xA1B2#16 = .pushW sp d) :=
  ⟨rfl, 0x00#8, 0xA1B2#16, .inr rfl⟩

theorem witness_StepKeepsInvariant :
    ∃ t, (small.issuing [0x8500000000DF#48]).Inv ∧ step (small.issuing [0x8500000000DF#48]) = .next t :=
  ⟨_, ⟨rfl, rfl⟩, rfl⟩

theorem witness_UnusedFlagReadsOneAfterAnyRun :
    ∃ t, (State.reset.issuing [0x850000000000#48]).rf.p.getLsbD 5 = true ∧
      run 1 (State.reset.issuing [0x850000000000#48]) = .next t :=
  ⟨_, rfl, run_succ_of_next rfl⟩

theorem witness_StepRunsTheDecodedCommand :
    (State.reset.issuing [0x40FD00001234#48]).cmds = 0x40FD00001234#48 :: [] ∧
    decode 0x40FD00001234#48 = .ok (.pushW 0xFD#8 0x1234#16) := by decide

theorem witness_StepWithoutACommandChangesNothing : State.reset.cmds = [] ∧ small.cmds = [] := by decide

theorem witness_TransactionAndStepAgree : LegalWord 0x950000000000#48 ∧ ¬ LegalWord 0x980000000000#48 ∧
    ¬ LegalWord 0x000000000000#48 := by
  unfold LegalWord
  decide

theorem witness_EveryLegalCommandCompletes : LegalWord 0xCFFFFFFFFFFF#48 ∧ LegalWord 0x850000001234#48 :=
  ⟨rfl, rfl⟩

theorem witness_LegalRunsNeverFail :
    ∀ w ∈ (State.reset.issuing [0x30FD00000011#48, 0xC00000000000#48]).cmds, LegalWord w := by
  intro w hw
  simp only [State.issuing, List.mem_cons, List.not_mem_nil, or_false] at hw
  rcases hw with rfl | rfl <;> rfl

theorem witness_RunsStopExactlyAtAnIllegalWord :
    firstCause ((State.reset.issuing [0xC00000000000#48, 0x760000000000#48]).cmds.take 2) = some .badSel ∧
    firstCause ((State.reset.issuing [0xC00000000000#48, 0x760000000000#48]).cmds.take 1) = none ∧
    firstCause ((State.reset.issuing [0xC00000000000#48, 0x760000000000#48]).cmds.take 5) = some .badSel ∧
    firstCause ((State.reset.issuing [0xC00000000000#48]).cmds.take 5) = none := by decide

theorem witness_ReadsGiveTheMostRecentWrite : small.mem.wf = true ∧
    lastWrite 0x01FF#16 0x00#8 ([Instr.pushW 0x00#8 0xA1B2#16, .memWr 0x01FF#16 0x33#16].flatMap byteWrites) = 0x33#8 := by
  decide

end Sys2Proof.Tests
end

section
/-! The checks of WellFormed.lean pass exactly the words that decode (30_encoding.md R56 to R58, R61). -/

namespace Sys2Proof

theorem exists_withReg_eq_ok {sel : BitVec 4} {k : Reg → Instr} :
    (∃ i, withReg sel k = .ok i) ↔ sel.toNat ≤ 0x5 := by
  rw [← Nat.not_lt, ← regOfSel_eq_none]
  cases h : regOfSel sel <;> simp [withReg, h]

theorem exists_withFlag_eq_ok {sel : BitVec 4} {k : Flag → Instr} :
    (∃ i, withFlag sel k = .ok i) ↔ sel.toNat ≤ 0x7 := by
  rw [← Nat.not_lt, ← flagOfSel_eq_none]
  cases h : flagOfSel sel <;> simp [withFlag, h]

/-- By the sixteen codes of `OP`: the codes with a register or a flag in `SEL` turn on `SEL`, the others
are legal or illegal whatever the other fields. -/
theorem exists_decodeFields_eq_ok {f : Fields} : (∃ i, decodeFields f = .ok i) ↔ f.wf = true := by
  obtain ⟨op, sel, spv, addr, data⟩ := f
  have hop : op ∈ [0x0#4, 0x1#4, 0x2#4, 0x3#4, 0x4#4, 0x5#4, 0x6#4, 0x7#4, 0x8#4, 0x9#4, 0xA#4, 0xB#4,
      0xC#4, 0xD#4, 0xE#4, 0xF#4] := by
    revert op; decide
  fin_cases hop
  all_goals simp [decodeFields, Fields.wf, Fields.opLegal, Fields.regSelLegal, Fields.flagSelLegal,
    exists_withReg_eq_ok, exists_withFlag_eq_ok]

end Sys2Proof

namespace Sys2Proof.Machine

theorem legalWord_iff_decode_ok {w : CommandWord} : LegalWord w ↔ ∃ i, decode w = .ok i :=
  exists_decodeFields_eq_ok.symm

theorem legalWord_of_decode_ok {w : CommandWord} {i : Instr} (hd : decode w = .ok i) : LegalWord w :=
  legalWord_iff_decode_ok.mpr ⟨i, hd⟩

theorem not_legalWord_of_decode_error {w : CommandWord} {c : Cause} (hd : decode w = .error c) :
    ¬ LegalWord w := by
  simp [legalWord_iff_decode_ok, hd]

theorem exists_cause_of_not_legalWord {w : CommandWord} (hw : ¬ LegalWord w) : ∃ c, decode w = .error c := by
  cases hd : decode w with
  | ok i => exact absurd (legalWord_of_decode_ok hd) hw
  | error c => exact ⟨c, rfl⟩

end Sys2Proof.Machine
end

section
/-! The two readings of a command word: what a step does with it, and what the transaction answers
(00_scope.md R11). -/

namespace Sys2Proof.Machine

variable {s t : State} {w : CommandWord} {rest : List CommandWord} {i : Instr} {c : Cause} {r : Response}

/-- Every command completes, and its response, without the error, stands on the port (30_encoding.md R48,
60_exceptions.md R84). -/
theorem exec_completes (i : Instr) (s : State) :
    ∃ t r, exec i s = .next t ∧ t.rsp = some r ∧ r.err = false := by
  cases i with
  | memRd addr => exact ⟨_, _, exec_memRd s addr, rfl, rfl⟩
  | memWr addr data => exact ⟨_, _, exec_memWr s addr data, rfl, rfl⟩
  | pushB spv data => exact ⟨_, _, exec_pushB s spv data, rfl, rfl⟩
  | pushW spv data => exact ⟨_, _, exec_pushW s spv data, rfl, rfl⟩
  | pullB spv => exact ⟨_, _, exec_pullB s spv, rfl, rfl⟩
  | pullW spv => exact ⟨_, _, exec_pullW s spv, rfl, rfl⟩
  | regRd r => exact ⟨_, _, exec_regRd s r, rfl, rfl⟩
  | regWr r data => exact ⟨_, _, exec_regWr s data r, rfl, rfl⟩
  | flagTst f => exact ⟨_, _, exec_flagTst s f, rfl, rfl⟩
  | flagSet f => exact ⟨_, _, exec_flagSet s f, rfl, rfl⟩
  | flagClr f => exact ⟨_, _, exec_flagClr s f, rfl, rfl⟩
  | diagRd => exact ⟨_, _, exec_diagRd s, rfl, rfl⟩

theorem step_of_cmds_nil (h : s.cmds = []) : step s = .next s := by
  simp [step, h]

theorem step_issuing_of_decode_ok (hd : decode w = .ok i) :
    step (s.issuing (w :: rest)) = exec i (s.issuing rest) := by
  simp [step, State.issuing, hd]

theorem step_issuing_of_decode_error (hd : decode w = .error c) :
    step (s.issuing (w :: rest)) = .fault (.illegalCommand c) := by
  simp [step, State.issuing, hd, raiseIllegal]

theorem transact_of_next (hd : decode w = .ok i) (hx : exec i s = .next t) (hr : t.rsp = some r) :
    transact w s = (t, r) := by
  simp [transact, hd, hx, hr]

theorem transact_of_decode_error (hd : decode w = .error c) :
    transact w s = ({ s with rsp := some (illegalResponse c) }, illegalResponse c) := by
  simp [transact, hd, answerIllegal]

theorem step_issuing_of_legalWord (s : State) (rest : List CommandWord) (hw : LegalWord w) :
    step (s.issuing (w :: rest)) = .next (transact w (s.issuing rest)).1 := by
  obtain ⟨i, hd⟩ := legalWord_iff_decode_ok.mp hw
  obtain ⟨t, r, hx, hr, -⟩ := exec_completes i (s.issuing rest)
  rw [step_issuing_of_decode_ok hd, hx, transact_of_next hd hx hr]

theorem transact_rsp (w : CommandWord) (s : State) : (transact w s).1.rsp = some (transact w s).2 := by
  cases hd : decode w with
  | ok i =>
    obtain ⟨t, r, hx, hr, -⟩ := exec_completes i s
    simpa [transact_of_next hd hx hr] using hr
  | error c => simp [transact_of_decode_error hd]

theorem transact_err_iff (w : CommandWord) (s : State) : (transact w s).2.err = true ↔ ¬ LegalWord w := by
  cases hd : decode w with
  | ok i =>
    obtain ⟨t, r, hx, hr, herr⟩ := exec_completes i s
    simp [transact_of_next hd hx hr, herr, legalWord_of_decode_ok hd]
  | error c => simp [transact_of_decode_error hd, illegalResponse, not_legalWord_of_decode_error hd]

end Sys2Proof.Machine
end

section
/-! The statements about the transaction and the step (family 00_scope.md). -/

namespace Sys2Proof.Machine

/-- Settles O40: the step and the transaction agree on a legal word because every command completes, and
on an illegal one because both read the same cause off the decoder. -/
theorem transactionAndStepAgree : Obligations.TransactionAndStepAgree := by
  intro s w rest
  refine ⟨step_issuing_of_legalWord s rest, fun hw => ?_, transact_rsp w s, transact_err_iff w s⟩
  obtain ⟨c, hd⟩ := exists_cause_of_not_legalWord hw
  exact ⟨c, hd, step_issuing_of_decode_error hd⟩

/-- Settles O39 by the first arm of `step`: the choice of log 2. -/
theorem stepWithoutACommandChangesNothing : Obligations.StepWithoutACommandChangesNothing :=
  fun _ => step_of_cmds_nil

end Sys2Proof.Machine
end

section
/-! What a command does to each part of the block's state, said once: the registers, the memory,
`did_write` and the request port (10_state.md); and what every step keeps because every command does. -/

namespace Sys2Proof.Machine

variable {s t : State} {i : Instr}

/-- The memory after the writes of a list, in its order. -/
def Memory.writeAll (m : Memory) (ws : List (Addr × Byte)) : Memory :=
  ws.foldl (fun m w => Memory.write m w.1.toNat w.2) m

theorem Memory.wf_writeAll {m : Memory} (ws : List (Addr × Byte)) (h : m.wf = true) :
    (m.writeAll ws).wf = true := by
  induction ws generalizing m with
  | nil => exact h
  | cons w ws ih => exact ih (Memory.wf_write w.1 w.2 h)

/-- The registers after a command: as before, or as its `REG_WR`, `FLAG_SET` or `FLAG_CLR` leaves them. -/
theorem exec_rf_cases (h : exec i s = .next t) :
    t.rf = s.rf ∨
    (∃ r data, i = .regWr r data ∧ t.rf = (writeReg r data s).rf) ∨
    (∃ f, i = .flagSet f ∧ t.rf = (setP (setFlag f s.rf.p) s).rf) ∨
    (∃ f, i = .flagClr f ∧ t.rf = (setP (clearFlag f s.rf.p) s).rf) := by
  cases i with
  | regWr r data => cases h; exact .inr (.inl ⟨r, data, rfl, rfl⟩)
  | flagSet f => cases h; exact .inr (.inr (.inl ⟨f, rfl, rfl⟩))
  | flagClr f => cases h; exact .inr (.inr (.inr ⟨f, rfl, rfl⟩))
  | memRd | memWr | pushB | pushW | pullB | pullW | regRd | flagTst | diagRd => cases h; exact .inl rfl

/-- The memory after a command: the bytes it stores are written, in their order. -/
theorem exec_mem (h : exec i s = .next t) : t.mem = s.mem.writeAll (byteWrites i) := by
  cases i with
  | regWr r data => cases h; exact writeReg_mem s r data
  | memRd | memWr | pushB | pushW | pullB | pullW | regRd | flagTst | flagSet | flagClr | diagRd =>
    cases h; rfl

theorem exec_didWrite (h : exec i s = .next t) : t.didWrite = (s.didWrite || setsDidWrite i) := by
  cases i with
  | pushW spv data => cases h; simp [setsDidWrite]
  | regWr r data => cases h; simp [setsDidWrite]
  | memWr | pushB => cases h; rfl
  | memRd | pullB | pullW | regRd | flagTst | flagSet | flagClr | diagRd =>
    cases h; exact (Bool.or_false _).symm

/-- A command takes no word off the request port: the step has done so (log 1). -/
theorem exec_cmds (h : exec i s = .next t) : t.cmds = s.cmds := by
  cases i with
  | regWr r data => cases h; exact writeReg_cmds s r data
  | memRd | memWr | pushB | pushW | pullB | pullW | regRd | flagTst | flagSet | flagClr | diagRd =>
    cases h; rfl

theorem setsDidWrite_iff : setsDidWrite i = true ↔ (∃ a d, i = .memWr a d) ∨
    (Config.pushSetsDidWrite = true ∧ ∃ sp d, i = .pushB sp d ∨ i = .pushW sp d) := by
  cases i <;> simp [setsDidWrite]

/-- What every command keeps, and the request port does not enter, every step keeps. -/
theorem step_keeps {P : State → Prop} (hport : ∀ s ws, P s → P { s with cmds := ws })
    (hexec : ∀ i s t, P s → exec i s = .next t → P t) (hs : P s) (h : step s = .next t) : P t := by
  obtain ⟨-, hidle⟩ | ⟨w, rest, i, -, -, hrun⟩ | ⟨w, rest, c, -, -, hfault⟩ := step_cases s
  · rw [hidle] at h; cases h; exact hs
  · rw [hrun] at h; exact hexec i _ t (hport s rest hs) h
  · rw [hfault] at h; cases h

theorem exec_keeps_wf (hm : s.mem.wf = true) (h : exec i s = .next t) : t.mem.wf = true := by
  rw [exec_mem h]
  exact Memory.wf_writeAll (byteWrites i) hm

theorem step_keeps_wf (hm : s.mem.wf = true) (h : step s = .next t) : t.mem.wf = true :=
  step_keeps (P := fun s => s.mem.wf = true) (fun _ _ => id) (fun _ _ _ => exec_keeps_wf) hm h

theorem readReg_of_rf_eq {r : Reg} (h : t.rf = s.rf) : readReg r t = readReg r s := by
  cases r <;> simp [readReg, h]

theorem writeReg_p_of_ne {r : Reg} (data : Word) (s : State) (h : r ≠ .p) :
    (writeReg r data s).rf.p = s.rf.p :=
  zext16_inj.mp (readReg_writeReg_other data s h.symm)

end Sys2Proof.Machine
end

section
/-! The flags of a byte that one of the three operations on `P` has written (10_state.md R20, R21), and
that every command and every step keeps bit 5 of `P`. -/

namespace Sys2Proof.Machine

variable {s t : State} {i : Instr}

theorem flagBit_lt (f : Flag) : flagBit f < 8 := by
  cases f <;> decide

theorem flagBit_inj {f g : Flag} : flagBit f = flagBit g ↔ f = g := by
  cases f <;> cases g <;> decide

theorem flagBit_eq_five {f : Flag} : flagBit f = 5 ↔ f = .u :=
  flagBit_inj (g := .u)

theorem testFlag_forceUnused (f : Flag) (v : Byte) :
    testFlag f (forceUnused v) = (decide (f = .u) || testFlag f v) := by
  simp only [testFlag, forceUnused_getLsbD _ (flagBit_lt f), flagBit_eq_five]

theorem testFlag_setFlag (f g : Flag) (p : Byte) :
    testFlag f (setFlag g p) = (decide (f = g) || testFlag f p) := by
  simp only [testFlag, setFlag_getLsbD _ _ (flagBit_lt f), flagBit_inj]

theorem testFlag_clearFlag (f g : Flag) (p : Byte) :
    testFlag f (clearFlag g p) = (decide (f = .u) || (decide (f ≠ g) && testFlag f p)) := by
  simp only [testFlag, clearFlag_getLsbD _ _ (flagBit_lt f), flagBit_eq_five, ne_eq, flagBit_inj]

theorem testFlag_u_writeReg (r : Reg) (data : Word) (h : testFlag .u s.rf.p = true) :
    testFlag .u (writeReg r data s).rf.p = true := by
  by_cases hr : r = .p
  · subst hr; exact testFlag_forceUnused .u (loByte data)
  · rwa [writeReg_p_of_ne data s hr]

theorem exec_keeps_unused (hu : testFlag .u s.rf.p = true) (h : exec i s = .next t) :
    testFlag .u t.rf.p = true := by
  obtain hrf | ⟨r, data, -, hrf⟩ | ⟨f, -, hrf⟩ | ⟨f, -, hrf⟩ := exec_rf_cases h <;> rw [hrf]
  · exact hu
  · exact testFlag_u_writeReg r data hu
  · simp [testFlag_setFlag, hu]
  · simp [testFlag_clearFlag]

theorem step_keeps_unused (hu : testFlag .u s.rf.p = true) (h : step s = .next t) :
    testFlag .u t.rf.p = true :=
  step_keeps (P := fun s => testFlag .u s.rf.p = true) (fun _ _ => id) (fun _ _ _ => exec_keeps_unused) hu h

end Sys2Proof.Machine
end

section
/-! Issuing commands one by one: a run over their words is their effects, one after the other
(30_encoding.md R61, R62). -/

namespace Sys2Proof.Machine

variable {s t : State} {i : Instr}

/-- By the command's constructor: its own `OP` code selects it, and its `SEL` code names its register or
flag again. -/
@[simp] theorem decode_encode (i : Instr) : decode (encode i) = .ok i := by
  rw [decode, encode, Fields.ofWord_toWord]
  cases i with
  | regRd r | regWr r data => simp [fieldsOf, decodeFields, withReg]
  | flagTst f | flagSet f | flagClr f => simp [fieldsOf, decodeFields, withFlag]
  | memRd | memWr | pushB | pushW | pullB | pullW | diagRd => rfl

theorem run_issuing_encode_cons (k : Nat) (rest : List CommandWord)
    (h : exec i (s.issuing rest) = .next t) :
    run (k + 1) (s.issuing (encode i :: rest)) = run k (t.issuing rest) := by
  have hstep : step (s.issuing (encode i :: rest)) = .next t :=
    (step_issuing_of_decode_ok (decode_encode i)).trans h
  have hcmds : t.cmds = rest := exec_cmds h
  rw [run_succ_of_next hstep, State.issuing, ← hcmds]

end Sys2Proof.Machine
end

section
/-! The statements about the state and who changes it (family 10_state.md). -/

namespace Sys2Proof.Machine

/-- Settles O36: both halves of the invariant are kept by themselves. -/
theorem stepKeepsInvariant : Obligations.StepKeepsInvariant := by
  rintro s t ⟨hm, hu⟩ h
  exact ⟨step_keeps_wf hm h, step_keeps_unused hu h⟩

/-- Settles O37: a run keeps bit 5 because every step does, and both commands show the stored bit. -/
theorem unusedFlagReadsOneAfterAnyRun : Obligations.UnusedFlagReadsOneAfterAnyRun := by
  refine ⟨rfl, fun k s t hs hrun => ?_⟩
  have hu : testFlag .u t.rf.p = true :=
    run_keeps (P := fun s => testFlag .u s.rf.p = true) (fun _ _ => step_keeps_unused) hs hrun
  refine ⟨⟨_, exec_flagTst t .u, ?_⟩, _, _, exec_regRd t .p, rfl, ?_⟩
  · rw [hu]; rfl
  · exact (zext16_getLsbD t.rf.p 5).trans hu

/-- Settles O30, by the effect of every command on `did_write`. -/
theorem didWriteOnlyRises : Obligations.DidWriteOnlyRises := by
  refine ⟨rfl, fun i s t h => ?_, fun s => ⟨_, exec_diagRd s, rfl⟩⟩
  rw [exec_didWrite h, Bool.or_eq_true, setsDidWrite_iff]

/-- Settles O31: a `REG_WR` of another register, and a flag write for a register other than `P`, leave the
register as it was. -/
theorem registersChangeOnlyByTheirCommands : Obligations.RegistersChangeOnlyByTheirCommands := by
  intro i s t r h hne
  obtain hrf | ⟨q, data, rfl, hrf⟩ | ⟨f, rfl, hrf⟩ | ⟨f, rfl, hrf⟩ := exec_rf_cases h <;>
    rw [readReg_of_rf_eq hrf] at hne
  · exact absurd rfl hne
  · have hr : r = q := of_not_not fun hr => hne (readReg_writeReg_other data s hr)
    exact .inl ⟨data, by rw [hr]⟩
  · exact .inr ⟨of_not_not fun hr => hne (readReg_setP_other _ s hr), f, .inl rfl⟩
  · exact .inr ⟨of_not_not fun hr => hne (readReg_setP_other _ s hr), f, .inr rfl⟩

/-- Settles O32: `U` is kept by every command, and a write of another register or another flag leaves the
flag as it was. -/
theorem flagsChangeOnlyByTheirCommands : Obligations.FlagsChangeOnlyByTheirCommands := by
  rintro i s t f ⟨-, hu⟩ h hne
  have hf : f ≠ .u := by
    rintro rfl
    exact hne ((exec_keeps_unused hu h).trans hu.symm)
  refine ⟨hf, ?_⟩
  obtain hrf | ⟨r, data, rfl, hrf⟩ | ⟨g, rfl, hrf⟩ | ⟨g, rfl, hrf⟩ := exec_rf_cases h <;> rw [hrf] at hne
  · exact absurd rfl hne
  · have hr : r = .p := of_not_not fun hr => hne (by rw [writeReg_p_of_ne data s hr])
    exact .inl ⟨data, by rw [hr]⟩
  · have hg : f = g := of_not_not fun hg => hne (by simp [testFlag_setFlag, hg])
    exact .inr (.inl (by rw [hg]))
  · have hg : f = g := of_not_not fun hg => hne (by simp [testFlag_clearFlag, hf, hg])
    exact .inr (.inr (by rw [hg]))

/-- Settles O45, by induction on the commands. -/
theorem didWriteRecordsTheRun : Obligations.DidWriteRecordsTheRun := by
  intro is
  induction is with
  | nil => exact fun s => ⟨_, rfl, (Bool.or_false _).symm⟩
  | cons i is ih =>
    intro s
    obtain ⟨u, -, hx, -⟩ := exec_completes i (s.issuing (is.map encode))
    obtain ⟨t, hrun, hdw⟩ := ih u
    have hdu : u.didWrite = (s.didWrite || setsDidWrite i) :=
      exec_didWrite (s := s.issuing (is.map encode)) hx
    refine ⟨t, (run_issuing_encode_cons is.length _ hx).trans hrun, ?_⟩
    rw [hdw, hdu, List.any_cons, Bool.or_assoc]

/-- Settles O9: a byte that nothing has written reads as `powerOnByte`, whose ROM starts after 0x7FFF. -/
theorem powerOnState : Obligations.PowerOnState := by
  refine ⟨rfl, fun a => ?_, rfl⟩
  have hread : memRead a State.reset = if 0x8000 ≤ a.toNat then 0xFE#8 else 0x00#8 := rfl
  rw [hread]
  by_cases ha : a.toNat ≤ 0x7FFF
  · rw [if_pos ha, if_neg (by omega)]
  · rw [if_neg ha, if_pos (by omega)]

end Sys2Proof.Machine
end

section
/-! What a list of byte writes, a command and a run leave in memory: every address reads as the last write
to it (20_memory.md R42 to R44). -/

namespace Sys2Proof.Machine

variable {s t : State} {i : Instr} {a : Addr} {ws : List (Addr × Byte)}

theorem Memory.writeAll_append (m : Memory) (ws ws' : List (Addr × Byte)) :
    m.writeAll (ws ++ ws') = (m.writeAll ws).writeAll ws' :=
  List.foldl_append

theorem Memory.read_writeAll {m : Memory} (a : Addr) (ws : List (Addr × Byte)) (h : m.wf = true) :
    Memory.read (m.writeAll ws) a.toNat = lastWrite a (Memory.read m a.toNat) ws := by
  induction ws generalizing m with
  | nil => rfl
  | cons w ws ih =>
    obtain ⟨b, v⟩ := w
    have hread : Memory.read (Memory.write m b.toNat v) a.toNat =
        if b = a then v else Memory.read m a.toNat := by
      by_cases hb : b = a
      · rw [if_pos hb, hb, Memory.read_write_same v h]
      · rw [if_neg hb, Memory.read_write_other v (by simpa [BitVec.toNat_inj] using Ne.symm hb)]
    exact (ih (Memory.wf_write b v h)).trans (by rw [hread]; rfl)

/-- The frame of a list of writes, which needs no canonical form. -/
theorem Memory.read_writeAll_of_not_mem (m : Memory) (h : a ∉ ws.map Prod.fst) :
    Memory.read (m.writeAll ws) a.toNat = Memory.read m a.toNat := by
  induction ws generalizing m with
  | nil => rfl
  | cons w ws ih =>
    simp only [List.map_cons, List.mem_cons, not_or] at h
    obtain ⟨hw, hws⟩ := h
    exact (ih _ hws).trans (Memory.read_write_other w.2 (by simpa [BitVec.toNat_inj] using hw))

theorem memRead_exec (a : Addr) (hm : s.mem.wf = true) (h : exec i s = .next t) :
    memRead a t = lastWrite a (memRead a s) (byteWrites i) := by
  rw [memRead, exec_mem h, Memory.read_writeAll a _ hm, memRead]

theorem memRead_exec_of_not_stored (h : exec i s = .next t) (ha : a ∉ (byteWrites i).map Prod.fst) :
    memRead a t = memRead a s := by
  rw [memRead, exec_mem h, Memory.read_writeAll_of_not_mem s.mem ha, memRead]

/-- Issued one by one, the commands complete, and leave in memory the bytes they store, in their order. -/
theorem exists_run_mem (is : List Instr) (s : State) :
    ∃ t, run is.length (s.issuing (is.map encode)) = .next t ∧
      t.mem = s.mem.writeAll (is.flatMap byteWrites) := by
  induction is generalizing s with
  | nil => exact ⟨_, rfl, rfl⟩
  | cons i is ih =>
    obtain ⟨u, -, hx, -⟩ := exec_completes i (s.issuing (is.map encode))
    obtain ⟨t, hrun, hmem⟩ := ih u
    have hu : u.mem = s.mem.writeAll (byteWrites i) := exec_mem (s := s.issuing (is.map encode)) hx
    refine ⟨t, (run_issuing_encode_cons is.length _ hx).trans hrun, ?_⟩
    rw [hmem, hu, ← Memory.writeAll_append, List.flatMap_cons]

theorem exists_run_memRead (is : List Instr) (hm : s.mem.wf = true) :
    ∃ t, run is.length (s.issuing (is.map encode)) = .next t ∧
      ∀ a, memRead a t = lastWrite a (memRead a s) (is.flatMap byteWrites) := by
  obtain ⟨t, hrun, hmem⟩ := exists_run_mem is s
  refine ⟨t, hrun, fun a => ?_⟩
  rw [memRead, hmem, Memory.read_writeAll a _ hm, memRead]

theorem memRead_reset (a : Addr) : memRead a State.reset = if a.toNat < 0x8000 then 0x00#8 else 0xFE#8 := by
  obtain ⟨-, hfill, -⟩ := powerOnState
  rw [hfill]
  exact if_congr (by omega) rfl rfl

end Sys2Proof.Machine
end

section
/-! Bytes of the data port as words: the low and the high byte zero-extended (00_scope.md R10). -/

namespace Sys2Proof.Machine

theorem zext16_toNat (b : Byte) : (zext16 b).toNat = b.toNat :=
  BitVec.toNat_setWidth_of_le (by decide)

theorem zext16_loByte (w : Word) : zext16 (loByte w) = w &&& 0x00FF#16 := by
  apply BitVec.eq_of_toNat_eq
  simp only [zext16_toNat, loByte, BitVec.extractLsb'_toNat, Nat.shiftRight_zero, BitVec.toNat_and]
  exact (Nat.and_two_pow_sub_one_eq_mod w.toNat 8).symm

theorem zext16_hiByte (w : Word) : zext16 (hiByte w) = w >>> 8 := by
  have := w.isLt
  apply BitVec.eq_of_toNat_eq
  simp only [zext16_toNat, hiByte, BitVec.extractLsb'_toNat, BitVec.toNat_ushiftRight,
    Nat.shiftRight_eq_div_pow]
  omega

@[simp] theorem loByte_setWidth (b : Byte) : loByte (b.setWidth 16) = b :=
  loByte_zext16 b

theorem loByte_ushiftRight_eight (w : Word) : loByte (w >>> 8) = hiByte w := by
  rw [← zext16_hiByte, loByte_zext16]

end Sys2Proof.Machine
end

section
/-! The bytes that the storing commands leave (41_memory_ops.md R73, 42_stack_engine.md R76, R77), and where
the stack commands store and read (20_memory.md R35). -/

namespace Sys2Proof.Machine

variable {s t : State} {i : Instr} {a : Addr} {sp : Byte} {data : Word}

theorem memRead_memWr_same (hm : s.mem.wf = true) (h : exec (.memWr a data) s = .next t) :
    memRead a t = loByte data := by
  simp [memRead_exec a hm h, byteWrites, lastWrite]

theorem memRead_memWr_other {b : Addr} (h : exec (.memWr a data) s = .next t) (hb : b ≠ a) :
    memRead b t = memRead b s :=
  memRead_exec_of_not_stored h (by simpa [byteWrites] using hb)

theorem memRead_pushB_slot (hm : s.mem.wf = true) (h : exec (.pushB sp data) s = .next t) :
    memRead (stackAddr sp) t = loByte data := by
  simp [memRead_exec _ hm h, byteWrites, lastWrite]

theorem memRead_pushW_high_slot (hm : s.mem.wf = true) (h : exec (.pushW sp data) s = .next t) :
    memRead (stackAddr sp) t = hiByte data := by
  simp [memRead_exec _ hm h, byteWrites, lastWrite, stackAddr_inj, spDown_ne]

theorem memRead_pushW_low_slot (hm : s.mem.wf = true) (h : exec (.pushW sp data) s = .next t) :
    memRead (stackAddr (spDown sp)) t = loByte data := by
  simp [memRead_exec _ hm h, byteWrites, lastWrite]

/-- Every store of a stack command is to the slot of some pointer. -/
theorem exists_slot_of_stack_store (hi : isStackCommand i = true) (ha : a ∈ (byteWrites i).map Prod.fst) :
    ∃ sp, a = stackAddr sp := by
  cases i with
  | pushB spv data => exact ⟨spv, by simpa [byteWrites] using ha⟩
  | pushW spv data =>
    obtain rfl | rfl : a = stackAddr spv ∨ a = stackAddr (spDown spv) := by simpa [byteWrites] using ha
    · exact ⟨_, rfl⟩
    · exact ⟨_, rfl⟩
  | pullB | pullW => simp [byteWrites] at ha
  | memRd | memWr | regRd | regWr | flagTst | flagSet | flagClr | diagRd => cases hi

/-- The answer of a stack command depends on its own fields and the bytes in the slots alone. -/
theorem stack_rsp_eq_of_slots_eq {s' t' : State} (hi : isStackCommand i = true)
    (hs : ∀ sp, memRead (stackAddr sp) s = memRead (stackAddr sp) s')
    (h : exec i s = .next t) (h' : exec i s' = .next t') : t.rsp = t'.rsp := by
  cases i with
  | pushB | pushW => cases h; cases h'; rfl
  | pullB | pullW => cases h; cases h'; simp only [hs]
  | memRd | memWr | regRd | regWr | flagTst | flagSet | flagClr | diagRd => cases hi

end Sys2Proof.Machine
end

section
/-! The partition of the address space (20_memory.md R30) and the vector (R33). -/

namespace Sys2Proof.Machine

variable {s : State} {a : Addr} {r r' : Region}

theorem Region.contains_iff : r.contains a = true ↔ r.range.1 ≤ a.toNat ∧ a.toNat ≤ r.range.2 := by
  simp [Region.contains]

theorem Region.exists_contains (a : Addr) : ∃ r : Region, r.contains a = true := by
  have ha := a.isLt
  obtain h | h | h | h : a.toNat ≤ 0x00FF ∨ (0x0100 ≤ a.toNat ∧ a.toNat ≤ 0x01FF) ∨
      (0x0200 ≤ a.toNat ∧ a.toNat ≤ 0x7FFF) ∨ 0x8000 ≤ a.toNat := by omega
  · exact ⟨.zeroPage, contains_iff.mpr ⟨Nat.zero_le _, h⟩⟩
  · exact ⟨.stack, contains_iff.mpr h⟩
  · exact ⟨.ram, contains_iff.mpr h⟩
  · exact ⟨.rom, contains_iff.mpr ⟨h, Nat.le_of_lt_succ ha⟩⟩

/-- Of two regions one ends before the other begins. -/
theorem Region.ranges_disjoint (h : r ≠ r') : r.range.2 < r'.range.1 ∨ r'.range.2 < r.range.1 := by
  revert h; cases r <;> cases r' <;> decide

theorem Region.eq_of_contains (h : r.contains a = true) (h' : r'.contains a = true) : r' = r := by
  rw [contains_iff] at h h'
  by_contra hne
  have := ranges_disjoint hne
  omega

theorem irqVector_toNat {lo hi : Byte} (hlo : memRead 0xFFFE#16 s = lo) (hhi : memRead 0xFFFF#16 s = hi) :
    (irqVector s).toNat = hi.toNat * 256 + lo.toNat := by
  rw [irqVector, joinBytes_toNat, Config.irqVecHi, Config.irqVecLo, hlo, hhi]

/-- Two `MEM_WR` to different addresses leave both bytes. -/
theorem exec_memWr_memWr {b : Addr} (v w : Byte) (hm : s.mem.wf = true) (hab : a ≠ b) :
    ∃ t u, exec (.memWr a (v.setWidth 16)) s = .next t ∧ exec (.memWr b (w.setWidth 16)) t = .next u ∧
      memRead a u = v ∧ memRead b u = w := by
  have ht := exec_memWr s a (v.setWidth 16)
  refine ⟨_, _, ht, exec_memWr _ b (w.setWidth 16), ?_, ?_⟩
  · exact (memRead_memWr_other (exec_memWr _ _ _) hab).trans (by simpa using memRead_memWr_same hm ht)
  · simpa using memRead_memWr_same (exec_keeps_wf hm ht) (exec_memWr _ b (w.setWidth 16))

end Sys2Proof.Machine
end

section
/-! The statements about memory (family 20_memory.md). -/

namespace Sys2Proof.Machine

/-- Settles O44: the run leaves in memory what the commands' stores leave, and `MEM_RD` answers that byte. -/
theorem readsGiveTheMostRecentWrite : Obligations.ReadsGiveTheMostRecentWrite := by
  refine ⟨fun is s hm => ?_, fun is => ?_⟩
  · obtain ⟨t, hrun, hread⟩ := exists_run_memRead is hm
    refine ⟨t, hrun, fun a => ⟨_, exec_memRd t a, ?_⟩⟩
    rw [← hread a]; rfl
  · obtain ⟨t, hrun, hread⟩ := exists_run_memRead is wf_reset
    exact ⟨t, hrun, fun a => by rw [hread a, memRead_reset]⟩

/-- Settles O24: the byte pushes store the same two bytes in the same two slots, and the byte pulls read
the same two slots. -/
theorem wordAccessIsTwoByteAccesses : Obligations.WordAccessIsTwoByteAccesses := by
  refine ⟨fun sp w s => ?_, fun sp s => ?_, fun sp w s hm => ?_⟩
  · refine ⟨_, _, _, _, _, exec_pushB s sp (w >>> 8), rfl, exec_pushB _ _ w, rfl, exec_pushW s sp w, ?_⟩
    rw [loByte_ushiftRight_eight]; rfl
  · refine ⟨_, _, _, _, _, _, _, _, exec_pullB s sp, rfl, exec_pullB _ _, rfl, exec_pullW s sp, rfl, ?_,
      rfl, fun _ _ => rfl, rfl⟩
    rw [joinBytes_toNat, zext16_toNat, zext16_toNat]; rfl
  · obtain ⟨t, hx, hrsp⟩ : ∃ t, exec (.pushW sp w) s = .next t ∧
        t.rsp = some ⟨0#16, spDown (spDown sp), false⟩ := ⟨_, exec_pushW s sp w, rfl⟩
    have hlo := memRead_pushW_low_slot hm hx
    have hhi := memRead_pushW_high_slot hm hx
    refine ⟨t, _, _, _, spDown sp, hx, hrsp, exec_pullB t _, ?_, exec_pullB _ _, ?_⟩
    · rw [spUp_spDown, hlo, zext16_loByte]
    · simp only [spUp_spDown, memRead_withRsp, hhi, zext16_hiByte]

/-- Settles O25: every slot lies in the page, the stack commands store and read slots only, and a slot is
an address like any other to `MEM_WR` and `MEM_RD`. -/
theorem stackCommandsTouchTheStackPageOnly : Obligations.StackCommandsTouchTheStackPageOnly := by
  refine ⟨fun i s t hi h a ha => ?_, fun i s s' t t' hi hpage h h' => ?_, fun sp v s hm => ⟨?_, ?_⟩⟩
  · refine memRead_exec_of_not_stored h fun hstored => ?_
    obtain ⟨sp, rfl⟩ := exists_slot_of_stack_store hi hstored
    have := sp.isLt
    rw [stackAddr_toNat] at ha
    omega
  · refine stack_rsp_eq_of_slots_eq hi (fun sp => hpage _ ?_ ?_) h h' <;> rw [stackAddr_toNat]
    · omega
    · have := sp.isLt; omega
  · have hx := exec_memWr s (stackAddr (spUp sp)) (v.setWidth 16)
    refine ⟨_, _, hx, exec_pullB _ sp, ?_⟩
    rw [memRead_memWr_same hm hx, loByte_setWidth]; rfl
  · have hx := exec_pushB s sp (v.setWidth 16)
    refine ⟨_, _, hx, exec_memRd _ (stackAddr sp), ?_⟩
    rw [memRead_pushB_slot hm hx, loByte_setWidth]; rfl

/-- Settles O28: the ranges meet end to end from 0x0000 to 0xFFFF. -/
theorem regionsPartitionTheAddressSpace : Obligations.RegionsPartitionTheAddressSpace := by
  refine ⟨rfl, rfl, rfl, rfl, fun a => ?_, fun r a => Region.contains_iff, rfl, rfl, rfl, rfl⟩
  obtain ⟨r, hr⟩ := Region.exists_contains a
  exact ⟨r, hr, fun r' => Region.eq_of_contains hr⟩

/-- Settles O29: the two writes are to different addresses, so their order does not matter. -/
theorem vectorHoldsItsLowByteFirst : Obligations.VectorHoldsItsLowByteFirst := by
  have hne : 0xFFFE#16 ≠ 0xFFFF#16 := by decide
  refine ⟨by decide, fun lo hi s hm => ⟨?_, ?_⟩⟩
  · obtain ⟨t, u, ht, hu, hlo, hhi⟩ := exec_memWr_memWr lo hi hm hne
    exact ⟨t, u, ht, hu, irqVector_toNat hlo hhi⟩
  · obtain ⟨t, u, ht, hu, hhi, hlo⟩ := exec_memWr_memWr hi lo hm hne.symm
    exact ⟨t, u, ht, hu, irqVector_toNat hlo hhi⟩

/-- Settles O33: a changed byte is among the command's stores, which are those its constructor names. -/
theorem memoryChangesOnlyWhereCommandsStore : Obligations.MemoryChangesOnlyWhereCommandsStore := by
  intro i s t a h hne
  have ha : a ∈ (byteWrites i).map Prod.fst := of_not_not fun ha => hne (memRead_exec_of_not_stored h ha)
  cases i with
  | memWr addr data =>
    obtain rfl : a = addr := by simpa [byteWrites] using ha
    exact .inl ⟨data, rfl⟩
  | pushB sp data =>
    have hslot : a = stackAddr sp := by simpa [byteWrites] using ha
    exact .inr (.inl ⟨sp, data, rfl, hslot⟩)
  | pushW sp data =>
    have hslots : a = stackAddr sp ∨ a = stackAddr (spDown sp) := by simpa [byteWrites] using ha
    exact .inr (.inr ⟨sp, data, rfl, hslots⟩)
  | memRd | pullB | pullW | regRd | regWr | flagTst | flagSet | flagClr | diagRd => simp [byteWrites] at ha

end Sys2Proof.Machine
end

section
/-! The decoder said once: when it gives a command, and with which cause it rejects (30_encoding.md R56,
R57, R61). -/

namespace Sys2Proof

variable {f : Fields} {w : CommandWord} {sel : BitVec 4} {i : Instr} {c : Cause}

theorem withReg_eq_ok {k : Reg → Instr} : withReg sel k = .ok i ↔ ∃ r, sel = selOfReg r ∧ k r = i := by
  constructor
  · intro h
    cases hr : regOfSel sel with
    | none => simp [withReg, hr] at h
    | some r => exact ⟨r, selOfReg_of_regOfSel hr, by simpa [withReg, hr] using h⟩
  · rintro ⟨r, rfl, rfl⟩
    simp [withReg]

theorem withFlag_eq_ok {k : Flag → Instr} : withFlag sel k = .ok i ↔ ∃ f, sel = selOfFlag f ∧ k f = i := by
  constructor
  · intro h
    cases hf : flagOfSel sel with
    | none => simp [withFlag, hf] at h
    | some f => exact ⟨f, selOfFlag_of_flagOfSel hf, by simpa [withFlag, hf] using h⟩
  · rintro ⟨f, rfl, rfl⟩
    simp [withFlag]

theorem withReg_eq_error {k : Reg → Instr} :
    withReg sel k = .error c ↔ c = .badSel ∧ 0x5 < sel.toNat := by
  rw [← regOfSel_eq_none]
  cases h : regOfSel sel <;> simp [withReg, h, eq_comm]

theorem withFlag_eq_error {k : Flag → Instr} :
    withFlag sel k = .error c ↔ c = .badSel ∧ 0x7 < sel.toNat := by
  rw [← flagOfSel_eq_none]
  cases h : flagOfSel sel <;> simp [withFlag, h, eq_comm]

/-- The sixteen codes of `OP`, for a split over them. -/
theorem op_mem_codes (op : BitVec 4) : op ∈ [0x0#4, 0x1#4, 0x2#4, 0x3#4, 0x4#4, 0x5#4, 0x6#4, 0x7#4,
    0x8#4, 0x9#4, 0xA#4, 0xB#4, 0xC#4, 0xD#4, 0xE#4, 0xF#4] := by
  revert op; decide

/-- By the code of `OP`: it names no command, or its command reads `SEL` as a register or as a flag, or it
rejects nothing. -/
theorem decodeFields_eq_error_iff :
    decodeFields f = .error c ↔
      (c = .badOp ∧ f.op ∈ [0x0#4, 0xD#4, 0xE#4, 0xF#4]) ∨
      (c = .badSel ∧ ((f.op ∈ [0x7#4, 0x8#4] ∧ 0x5 < f.sel.toNat) ∨
        (f.op ∈ [0x9#4, 0xA#4, 0xB#4] ∧ 0x7 < f.sel.toNat))) := by
  obtain ⟨op, sel, spv, addr, data⟩ := f
  have hop := op_mem_codes op
  fin_cases hop
  all_goals simp [decodeFields, withReg_eq_error, withFlag_eq_error, eq_comm (a := c)]

theorem decodeFields_eq_badOp_iff :
    decodeFields f = .error .badOp ↔ f.op ∈ [0x0#4, 0xD#4, 0xE#4, 0xF#4] := by
  simp only [decodeFields_eq_error_iff, reduceCtorEq, true_and, false_and, or_false]

theorem decodeFields_eq_badSel_iff :
    decodeFields f = .error .badSel ↔
      (f.op ∈ [0x7#4, 0x8#4] ∧ 0x5 < f.sel.toNat) ∨
        (f.op ∈ [0x9#4, 0xA#4, 0xB#4] ∧ 0x7 < f.sel.toNat) := by
  simp only [decodeFields_eq_error_iff, reduceCtorEq, true_and, false_and, false_or]

end Sys2Proof
end

section
/-! A word and a mask, field by field (30_encoding.md R49), and the opcode table by the `OP` codes of its
rows (R51). -/

namespace Sys2Proof

variable {w w' m : CommandWord}

/-! `BitVec.and_allOnes` for the masks as `Fields.ofWord` gives them, as literals. -/

theorem and_ones_four (x : BitVec 4) : x &&& 0xF#4 = x := BitVec.and_allOnes

theorem and_ones_eight (x : Byte) : x &&& 0xFF#8 = x := BitVec.and_allOnes

theorem and_ones_sixteen (x : Word) : x &&& 0xFFFF#16 = x := BitVec.and_allOnes

theorem Fields.ofWord_inj : Fields.ofWord w = Fields.ofWord w' ↔ w = w' :=
  ⟨fun h => by rw [← Fields.toWord_ofWord w, h, Fields.toWord_ofWord], congrArg _⟩

theorem Fields.ofWord_and (w m : CommandWord) : Fields.ofWord (w &&& m) =
    ⟨(Fields.ofWord w).op &&& (Fields.ofWord m).op, (Fields.ofWord w).sel &&& (Fields.ofWord m).sel,
      (Fields.ofWord w).spv &&& (Fields.ofWord m).spv,
      (Fields.ofWord w).addr &&& (Fields.ofWord m).addr,
      (Fields.ofWord w).data &&& (Fields.ofWord m).data⟩ := by
  simp [Fields.ofWord, BitVec.extractLsb'_and]

/-- The `OP` code of a row of the opcode table. -/
def OpcodeRow.op (row : OpcodeRow) : BitVec 4 := (Fields.ofWord row.bits).op

theorem opcodeTable_mask : ∀ row ∈ opcodeTable, row.mask = 0xF00000000000#48 := by decide

theorem opcodeTable_bits_masked : ∀ row ∈ opcodeTable, row.bits &&& row.mask = row.bits := by decide

theorem opcodeTable_op : ∀ row ∈ opcodeTable, row.op = (row.bits >>> 44).setWidth 4 := by decide

theorem opcodeTable_mnemonic_iff_op :
    ∀ row ∈ opcodeTable, ∀ row' ∈ opcodeTable, row.mnemonic = row'.mnemonic ↔ row.op = row'.op := by decide

theorem exists_row_op_iff : ∀ op : BitVec 4,
    (∃ row ∈ opcodeTable, row.op = op) ↔ op ∉ [0x0#4, 0xD#4, 0xE#4, 0xF#4] := by decide

theorem opcodeTable_match_iff {row : OpcodeRow} (hrow : row ∈ opcodeTable) :
    w &&& row.mask = row.bits ↔ row.op = (Fields.ofWord w).op := by
  rw [← opcodeTable_bits_masked row hrow, opcodeTable_mask row hrow, ← Fields.ofWord_inj, Fields.ofWord_and,
    Fields.ofWord_and]
  simp [Fields.ofWord, OpcodeRow.op, and_ones_four, eq_comm]

end Sys2Proof
end

section
/-! What a command reads of its word (30_encoding.md R54, R55, R60). The word with its ignored bits at 0 is
the word of the decoded command with its ignored `DATA` bits at 0; so the bits read decide the effect. -/

namespace Sys2Proof

variable {w w' : CommandWord} {i : Instr}

/-- The command as its spelling shows it: where the destination has 8 bits, `DATA[15:8]` is 0
(30_encoding.md R60, R62). -/
def Instr.spelled : Instr → Instr
  | .memWr addr data => .memWr addr (data &&& 0x00FF#16)
  | .pushB spv data  => .pushB spv (data &&& 0x00FF#16)
  | .regWr r data    => .regWr r (if r = .pc then data else data &&& 0x00FF#16)
  | i => i

theorem Fields.toWord_op (f : Fields) : f.toWord.extractLsb' 44 4 = f.op :=
  congrArg Fields.op (Fields.ofWord_toWord f)

theorem Fields.toWord_sel (f : Fields) : f.toWord.extractLsb' 40 4 = f.sel :=
  congrArg Fields.sel (Fields.ofWord_toWord f)

theorem selOfReg_eq_zero {r : Reg} : selOfReg r = 0x0#4 ↔ r = .pc := by
  cases r <;> decide

/-- The codes of `OP` by what their word's `SEL` and other fields are for (30_encoding.md R51, R54, R56). -/
theorem op_kinds (op : BitVec 4) :
    op = 0x8#4 ∨ op ∈ [0x7#4, 0x9#4, 0xA#4, 0xB#4] ∨
      op ∈ [0x1#4, 0x2#4, 0x3#4, 0x4#4, 0x5#4, 0x6#4, 0xC#4] ∨ op ∈ [0x0#4, 0xD#4, 0xE#4, 0xF#4] := by
  revert op; decide

/-- By the kind of `OP`: `REG_WR`, whose `DATA` is as wide as the register; the other commands that read
`SEL`; those that ignore it; and no command. -/
theorem encode_spelled (h : decode w = .ok i) : encode i.spelled = w &&& readMask w := by
  obtain ⟨f, rfl⟩ : ∃ f : Fields, f.toWord = w := ⟨_, Fields.toWord_ofWord w⟩
  rw [decode, Fields.ofWord_toWord] at h
  rw [← Fields.ofWord_inj, Fields.ofWord_and, encode, Fields.ofWord_toWord, Fields.ofWord_toWord]
  obtain ⟨op, sel, spv, addr, data⟩ := f
  obtain rfl | hop | hop | hop := op_kinds op
  · obtain ⟨r, rfl, rfl⟩ := withReg_eq_ok.mp h
    by_cases hr : r = .pc
    all_goals simp [readMask, Fields.toWord_op, Fields.toWord_sel, selOfReg_eq_zero, hr, Fields.ofWord,
      fieldsOf, Instr.spelled, and_ones_four, and_ones_sixteen]
  · fin_cases hop
    all_goals
      simp only [decodeFields, BitVec.reduceToNat, withReg_eq_ok, withFlag_eq_ok] at h
      obtain ⟨_, rfl, rfl⟩ := h
      simp [readMask, Fields.toWord_op, Fields.ofWord, fieldsOf, Instr.spelled, and_ones_four]
  · fin_cases hop
    all_goals
      cases h
      simp [readMask, Fields.toWord_op, Fields.ofWord, fieldsOf, Instr.spelled, and_ones_eight,
        and_ones_sixteen]
  · rw [decodeFields_eq_badOp_iff.mpr hop] at h
    cases h

/-- `OP` is read whatever the word. -/
theorem readMask_op (w : CommandWord) : (Fields.ofWord (readMask w)).op = 0xF#4 := by
  unfold readMask
  split
  case h_8 => split <;> rfl
  all_goals rfl

/-- `SEL` is read where `OP` gives it a meaning. -/
theorem readMask_sel (h : (Fields.ofWord w).op ∈ [0x7#4, 0x8#4, 0x9#4, 0xA#4, 0xB#4]) :
    (Fields.ofWord (readMask w)).sel = 0xF#4 := by
  simp only [Fields.ofWord, List.mem_cons, List.not_mem_nil, or_false] at h
  by_cases hpc : w.extractLsb' 40 4 = 0x0#4
  all_goals obtain h | h | h | h | h := h <;> simp [readMask, Fields.ofWord, h, hpc]

/-- Two words that agree on the bits the first reads have one `OP`. -/
theorem op_eq_of_agree (h : w &&& readMask w = w' &&& readMask w) :
    (Fields.ofWord w).op = (Fields.ofWord w').op := by
  have hop := congrArg (fun v => (Fields.ofWord v).op) h
  simpa only [Fields.ofWord_and, readMask_op, and_ones_four] using hop

theorem sel_eq_of_agree (h : w &&& readMask w = w' &&& readMask w)
    (hw : (Fields.ofWord w).op ∈ [0x7#4, 0x8#4, 0x9#4, 0xA#4, 0xB#4]) :
    (Fields.ofWord w).sel = (Fields.ofWord w').sel := by
  have hsel := congrArg (fun v => (Fields.ofWord v).sel) h
  simpa only [Fields.ofWord_and, readMask_sel hw, and_ones_four] using hsel

theorem readMask_eq_of_agree (h : w &&& readMask w = w' &&& readMask w) : readMask w' = readMask w := by
  have hop : w.extractLsb' 44 4 = w'.extractLsb' 44 4 := op_eq_of_agree h
  by_cases h8 : w.extractLsb' 44 4 = 0x8#4
  · have hsel : w.extractLsb' 40 4 = w'.extractLsb' 40 4 :=
      sel_eq_of_agree h (by simp [Fields.ofWord, h8])
    rw [readMask, readMask, hop, hsel]
  · rw [readMask, readMask, hop]
    split
    case h_8 h => exact absurd (BitVec.eq_of_toNat_eq h) (hop ▸ h8)
    all_goals rfl

/-- Which cause rejects a word depends on `OP` alone, and on `SEL` where it is read. -/
theorem decode_eq_error_of_agree {c : Cause} (h : w &&& readMask w = w' &&& readMask w) :
    decode w = .error c ↔ decode w' = .error c := by
  cases c with
  | badOp => rw [decode, decode, decodeFields_eq_badOp_iff, decodeFields_eq_badOp_iff, op_eq_of_agree h]
  | badSel =>
    rw [decode, decode, decodeFields_eq_badSel_iff, decodeFields_eq_badSel_iff, ← op_eq_of_agree h]
    exact or_congr
      (and_congr_right fun hw => by rw [sel_eq_of_agree h (List.mem_append_left [0x9#4, 0xA#4, 0xB#4] hw)])
      (and_congr_right fun hw => by rw [sel_eq_of_agree h (List.mem_append_right [0x7#4, 0x8#4] hw)])

end Sys2Proof

namespace Sys2Proof.Machine

variable {w w' : CommandWord} {i i' : Instr}

theorem encode_inj : encode i = encode i' ↔ i = i' :=
  ⟨fun h => Except.ok.inj (by rw [← decode_encode i, h, decode_encode]), congrArg _⟩

theorem loByte_and_ff (data : Word) : loByte (data &&& 0x00FF#16) = loByte data := by
  rw [← zext16_loByte, loByte_zext16]

/-- The bits that the spelling drops are bits that the command ignores. -/
theorem exec_spelled (i : Instr) (s : State) : exec i.spelled s = exec i s := by
  cases i with
  | memWr addr data => simp only [Instr.spelled, exec_memWr, loByte_and_ff]
  | pushB spv data => simp only [Instr.spelled, exec_pushB, loByte_and_ff]
  | regWr r data => cases r <;> simp [Instr.spelled, exec_regWr, writeReg, loByte_and_ff]
  | memRd | pushW | pullB | pullW | regRd | flagTst | flagSet | flagClr | diagRd => rfl

theorem spelled_eq_of_agree (h : w &&& readMask w = w' &&& readMask w)
    (hw : decode w = .ok i) (hw' : decode w' = .ok i') : i.spelled = i'.spelled := by
  rw [← encode_inj, encode_spelled hw, encode_spelled hw', readMask_eq_of_agree h, h]

/-- Words that agree on the bits read are rejected with one cause, or decode to commands with one effect. -/
theorem decode_cases_of_agree (h : w &&& readMask w = w' &&& readMask w) :
    (∃ c, decode w = .error c ∧ decode w' = .error c) ∨
    (∃ i i', decode w = .ok i ∧ decode w' = .ok i' ∧ exec i = exec i') := by
  cases hw : decode w with
  | error c => exact .inl ⟨c, rfl, (decode_eq_error_of_agree h).mp hw⟩
  | ok i =>
    cases hw' : decode w' with
    | error c => rw [(decode_eq_error_of_agree h).mpr hw'] at hw; cases hw
    | ok i' =>
      refine .inr ⟨i, i', rfl, rfl, funext fun s => ?_⟩
      rw [← exec_spelled i, spelled_eq_of_agree h hw hw', exec_spelled]

theorem transact_eq_of_exec_eq (s : State) (h : decode w = .ok i) (h' : decode w' = .ok i')
    (hx : exec i = exec i') : transact w s = transact w' s := by
  simp only [transact, h, h', hx]

theorem readMask_and_readMask (w : CommandWord) : readMask (w &&& readMask w) = readMask w :=
  readMask_eq_of_agree (by rw [BitVec.and_assoc, BitVec.and_self])

theorem encode_and_readMask (h : decode w = .ok i) : encode i &&& readMask w = w &&& readMask w := by
  have hself : encode i.spelled = encode i &&& readMask (encode i) := encode_spelled (decode_encode i)
  have hmask : readMask (encode i) = readMask w := by
    rw [← readMask_and_readMask (encode i), ← hself, encode_spelled h, readMask_and_readMask]
  rw [← encode_spelled h, hself, hmask]

/-- The row of the opcode table under a command's mnemonic has the `OP` of the command's word. -/
theorem exists_row_of_command (i : Instr) :
    ∃ row ∈ opcodeTable, row.mnemonic = i.mnemonic ∧ row.op = (Fields.ofWord (encode i)).op := by
  obtain ⟨-, row, hrow, hname, hop, -⟩ := Sys2Proof.Laws.EncodesLegal.statement_holds i
  exact ⟨row, hrow, hname, (opcodeTable_op row hrow).trans hop⟩

end Sys2Proof.Machine
end

section
/-! A pseudo-command is its second command, on the pointer that `S` holds, and then `S` takes the pointer
answered (30_encoding.md R63). -/

namespace Sys2Proof.Machine

variable {s t : State} {p : Pseudo} {i : Instr} {r : Response}

theorem transact_encode (hx : exec i s = .next t) (hr : t.rsp = some r) : transact (encode i) s = (t, r) :=
  transact_of_next (decode_encode i) hx hr

/-- The state in which the second command runs: the port shows `S`. -/
def State.showingS (s : State) : State := { s with rsp := some ⟨zext16 s.rf.s, 0#8, false⟩ }

theorem runPseudo_eq (hx : exec (pseudoSecond p s.rf.s) s.showingS = .next t) (hr : t.rsp = some r) :
    runPseudo p s = ({ t with rf := { t.rf with s := r.sp }, rsp := some ⟨0#16, 0#8, false⟩ }, r) := by
  have hfirst : transact (encode pseudoFirst) s = (s.showingS, ⟨zext16 s.rf.s, 0#8, false⟩) :=
    transact_encode (exec_regRd s .s) rfl
  have hsecond := transact_encode hx hr
  have hthird := transact_encode (exec_regWr t (zext16 r.sp) .s) rfl
  simp only [runPseudo, pseudoThird, hfirst, loByte_zext16, hsecond, hthird]
  simp [writeReg]

theorem spDown_spDown (sp : Byte) : spDown (spDown sp) = sp - 2#8 := by
  simp only [spDown]; bv_omega

theorem spUp_spUp (sp : Byte) : spUp (spUp sp) = sp + 2#8 := by
  simp only [spUp]; bv_omega

end Sys2Proof.Machine
end

section
/-! The assembler's reader meets each part of a spelling (30_encoding.md R62, R63). -/

namespace Sys2Proof.Machine

variable {start rest cs : List Char}

theorem eq_append_of_skip {l cs : List Char} (h : skip l cs = some rest) : cs = l ++ rest := by
  induction l generalizing cs with
  | nil => simpa [skip] using h
  | cons a l ih =>
    cases cs with
    | nil => simp [skip] at h
    | cons c cs =>
      rw [skip] at h
      split at h
      case isTrue hac => rw [hac, ih h, List.cons_append]
      case isFalse => cases h

/-- Of two beginnings of one text, one begins with the other. -/
theorem skip_append_eq_none {l : List Char} (h : ¬ l <+: start) (h' : ¬ start <+: l) :
    skip l (start ++ rest) = none := by
  cases hskip : skip l (start ++ rest) with
  | none => rfl
  | some rest' =>
    obtain ⟨m, hm, -⟩ | ⟨m, hm, -⟩ := List.append_eq_append_iff.mp (eq_append_of_skip hskip)
    · exact absurd ⟨m, hm.symm⟩ h'
    · exact absurd ⟨m, hm.symm⟩ h

/-- Where no beginning begins with another, a text is read by the form of its own beginning. -/
theorem readWith_append {forms : List (List Char × (List Char → Option Line))}
    {read : List Char → Option Line}
    (hforms : (forms.map Prod.fst).Pairwise fun l l' => ¬ l <+: l' ∧ ¬ l' <+: l)
    (h : (start, read) ∈ forms) : readWith forms (start ++ rest) = read rest := by
  induction forms with
  | nil => cases h
  | cons f forms ih =>
    rw [List.map_cons, List.pairwise_cons] at hforms
    obtain ⟨hf, hforms⟩ := hforms
    obtain rfl | h := List.mem_cons.mp h
    · rw [readWith, skip_append]
    · obtain ⟨hfs, hsf⟩ := hf start (List.mem_map_of_mem h)
      rw [readWith, skip_append_eq_none hfs hsf]
      exact ih hforms h

theorem lineForms_apart :
    (lineForms.map Prod.fst).Pairwise fun l l' => ¬ l <+: l' ∧ ¬ l' <+: l := by decide

theorem readLine_append : ∀ form ∈ lineForms, ∀ rest, readLine (form.1 ++ rest) = form.2 rest :=
  fun _ hform _ => readWith_append lineForms_apart hform

/-- After `P` alone a `C` would be read as the second letter of `PC`; no text after a register begins so. -/
theorem takeReg_regName (r : Reg) (h : rest.head? ≠ some 'C') :
    takeReg (regName r ++ rest) = some (r, rest) := by
  cases r with
  | p =>
    cases rest with
    | nil => rfl
    | cons c cs =>
      have hc : c ≠ 'C' := by simpa using h
      simp [regName, takeReg, hc]
  | pc | a | x | y | s => rfl

theorem takeFlag_flagName (f : Flag) : takeFlag (flagName f :: rest) = some (f, rest) := by
  cases f <;> rfl

theorem takeByteData_hexByte (data : Word) :
    takeByteData (hexByte (loByte data) ++ rest) = some (data &&& 0x00FF#16, rest) := by
  simp [takeByteData, takeByte_hexByte, zext16_loByte]

theorem writeData_append {take : List Char → Option (Word × List Char)} {v : Word}
    (h : take cs = some (v, [])) : writeData take (", #$".toList ++ cs) = some v := by
  simp only [writeData, skip_append, Option.bind_some, h, atEnd]

theorem writeData_hexWord (data : Word) : writeData takeWord (", #$".toList ++ hexWord data) = some data :=
  writeData_append (by simpa using takeWord_hexWord data [])

theorem writeData_hexByte (data : Word) :
    writeData takeByteData (", #$".toList ++ hexByte (loByte data)) = some (data &&& 0x00FF#16) :=
  writeData_append (by simpa using takeByteData_hexByte (rest := []) data)

theorem readRegWr_regData (r : Reg) (data : Word) :
    readRegWr (regName r ++ (", #$".toList ++ regData r data)) =
      some (.regWr r (if r = .pc then data else data &&& 0x00FF#16)) := by
  have hreg : takeReg (regName r ++ (", #$".toList ++ regData r data)) =
      some (r, ", #$".toList ++ regData r data) :=
    takeReg_regName r (by simp)
  rw [readRegWr, hreg, Option.bind_some]
  by_cases hr : r = .pc
  · simp only [hr, regData, if_true, writeData_hexWord, Option.map_some]
  · simp only [hr, regData, if_false, writeData_hexByte, Option.map_some]

theorem atEnd_takeWord (w : Word) : atEnd (takeWord (hexWord w)) = some w := by
  rw [← List.append_nil (hexWord w), takeWord_hexWord, atEnd]

theorem atEnd_takeByte (b : Byte) : atEnd (takeByte (hexByte b)) = some b := by
  rw [← List.append_nil (hexByte b), takeByte_hexByte, atEnd]

theorem atEnd_takeReg (r : Reg) : atEnd (takeReg (regName r)) = some r := by
  rw [← List.append_nil (regName r), takeReg_regName r (by simp), atEnd]

theorem atEnd_takeFlag (f : Flag) : atEnd (takeFlag [flagName f]) = some f := by
  rw [takeFlag_flagName, atEnd]

/-- By the command's constructor: its form reads its operands back. The lines are restated by `change`, since
the equations of `spell` would evaluate its texts. -/
theorem readLine_spell (i : Instr) : readLine (spell i) = some (.command i.spelled) := by
  have hforms := readLine_append
  simp only [lineForms, List.forall_mem_cons] at hforms
  obtain ⟨hMemRd, hMemWr, hPushB, hPushW, hPullB, hPullW, hRegRd, hRegWr, hFlagTst, hFlagSet, hFlagClr,
    hDiagRd, -⟩ := hforms
  cases i with
  | memRd addr => exact (hMemRd _).trans (by rw [atEnd_takeWord]; rfl)
  | memWr addr data =>
    change readLine ("MEM_WR $".toList ++ hexWord addr ++ ", #$".toList ++ hexByte (loByte data)) = _
    rw [List.append_assoc, List.append_assoc, hMemWr, takeWord_hexWord, Option.bind_some, writeData_hexByte]
    rfl
  | pushB spv data =>
    change readLine ("PUSH_B $".toList ++ hexByte spv ++ ", #$".toList ++ hexByte (loByte data)) = _
    rw [List.append_assoc, List.append_assoc, hPushB, takeByte_hexByte, Option.bind_some, writeData_hexByte]
    rfl
  | pushW spv data =>
    change readLine ("PUSH_W $".toList ++ hexByte spv ++ ", #$".toList ++ hexWord data) = _
    rw [List.append_assoc, List.append_assoc, hPushW, takeByte_hexByte, Option.bind_some, writeData_hexWord]
    rfl
  | pullB spv => exact (hPullB _).trans (by rw [atEnd_takeByte]; rfl)
  | pullW spv => exact (hPullW _).trans (by rw [atEnd_takeByte]; rfl)
  | regRd r => exact (hRegRd _).trans (by rw [atEnd_takeReg]; rfl)
  | regWr r data =>
    change readLine ("REG_WR ".toList ++ regName r ++ ", #$".toList ++ regData r data) = _
    rw [List.append_assoc, List.append_assoc, hRegWr, readRegWr_regData]
    rfl
  | flagTst f => exact (hFlagTst _).trans (by rw [atEnd_takeFlag]; rfl)
  | flagSet f => exact (hFlagSet _).trans (by rw [atEnd_takeFlag]; rfl)
  | flagClr f => exact (hFlagClr _).trans (by rw [atEnd_takeFlag]; rfl)
  | diagRd => exact hDiagRd []

theorem readLine_spellPseudo (p : Pseudo) : readLine (spellPseudo p) = some (.pseudo p) := by
  have hforms := readLine_append
  simp only [lineForms, List.forall_mem_cons] at hforms
  obtain ⟨-, -, -, -, -, -, -, -, -, -, -, -, hPushsB, hPushsW, hPullsB, hPullsW, -⟩ := hforms
  cases p with
  | pushsB data => exact (hPushsB _).trans (by rw [atEnd_takeByte]; rfl)
  | pushsW data => exact (hPushsW _).trans (by rw [atEnd_takeWord]; rfl)
  | pullsB => exact hPullsB []
  | pullsW => exact hPullsW []

end Sys2Proof.Machine
end

section
/-! What the block answers to an illegal word, whatever its cause (60_exceptions.md R83). -/

namespace Sys2Proof.Machine

variable {w : CommandWord} {c : Cause}

theorem illegal_changes_nothing (rest : List CommandWord) (s : State) (hd : decode w = .error c) :
    step (s.issuing (w :: rest)) = .fault (.illegalCommand c) ∧ (transact w s).2 = illegalResponse c ∧
      (transact w s).1.rsp = some (transact w s).2 ∧ SameBlock s (transact w s).1 := by
  refine ⟨step_issuing_of_decode_error hd, ?_, transact_rsp w s, ?_⟩ <;> rw [transact_of_decode_error hd]
  exact ⟨rfl, fun _ _ => rfl, rfl⟩

end Sys2Proof.Machine
end

section
/-! The statements about command words, pseudo-commands and assembler text (family 30_encoding.md). -/

namespace Sys2Proof.Machine

/-- Settles O2: fields and words are inverse, and each command's `OP` and `SEL` select it again. -/
theorem decodeOfEncode : Obligations.DecodeOfEncode :=
  decode_encode

/-- Settles O53: no line's beginning begins another, so each line is read by its own form. -/
theorem assemblerReadsEverySpelling : Obligations.AssemblerReadsEverySpelling := by
  refine ⟨fun i => ?_, readLine_spellPseudo⟩
  rw [readLine_spell]
  cases i <;> rfl

/-- Settles O4: the rows of the opcode table are the `OP` codes that are not `BAD_OP`. -/
theorem everyWordIsLegalOrIllegal : Obligations.EveryWordIsLegalOrIllegal := by
  refine fun w => ⟨legalWord_iff_decode_ok, ?_, exists_cause_of_not_legalWord, fun ⟨c, hd⟩ =>
    not_legalWord_of_decode_error hd⟩
  rw [decode, ne_eq, decodeFields_eq_badOp_iff, ← exists_row_op_iff]
  exact exists_congr fun row => and_congr_right opcodeTable_match_iff

/-- Settles O5: the command's word is the word on every bit read, `OP` among them, and `OP` picks the row. -/
theorem decodedCommandKeepsTheBitsItReads : Obligations.DecodedCommandKeepsTheBitsItReads := by
  intro w i hd
  have hbits := encode_and_readMask hd
  refine ⟨hbits, fun row hrow => ?_⟩
  obtain ⟨row', hrow', hname, hop⟩ := exists_row_of_command i
  rw [← hname, opcodeTable_mnemonic_iff_op row hrow row' hrow', opcodeTable_match_iff hrow, hop,
    op_eq_of_agree hbits.symm]

/-- Settles O6: the two words are rejected alike, or decode to commands with one effect. -/
theorem ignoredBitsDoNotMatter : Obligations.IgnoredBitsDoNotMatter := by
  intro w w' rest s h
  obtain ⟨c, hd, hd'⟩ | ⟨i, i', hd, hd', hx⟩ := decode_cases_of_agree h
  · rw [transact_of_decode_error hd, transact_of_decode_error hd', step_issuing_of_decode_error hd,
      step_issuing_of_decode_error hd']
    exact ⟨rfl, rfl⟩
  · rw [step_issuing_of_decode_ok hd, step_issuing_of_decode_ok hd', hx]
    exact ⟨transact_eq_of_exec_eq s hd hd' hx, rfl⟩

/-- Settles O7: these are the codes that decode to `BAD_OP`. -/
theorem illegalOpFaultsAndChangesNothing : Obligations.IllegalOpFaultsAndChangesNothing :=
  ⟨fun _ rest s hop => illegal_changes_nothing rest s (decodeFields_eq_badOp_iff.mpr hop), by decide⟩

/-- Settles O8: these are the words that decode to `BAD_SEL`. -/
theorem illegalSelFaultsAndChangesNothing : Obligations.IllegalSelFaultsAndChangesNothing :=
  fun _ rest s hsel => illegal_changes_nothing rest s (decodeFields_eq_badSel_iff.mpr hsel)

/-- Settles O34, by the four kinds of command: those that produce data, those that produce neither field, the
pushes and the pulls. -/
theorem unproducedResponseFieldsAreZero : Obligations.UnproducedResponseFieldsAreZero := by
  intro i s
  obtain ⟨t, r, hx, hr, herr⟩ := exec_completes i s
  refine ⟨t, r, hx, hr, herr, ?_⟩
  cases i with
  | memRd | regRd | flagTst | diagRd => cases hx; cases hr; exact ⟨fun _ => rfl, by simp⟩
  | memWr | regWr | flagSet | flagClr => cases hx; cases hr; exact ⟨fun _ => rfl, fun _ => rfl⟩
  | pushB | pushW => cases hx; cases hr; exact ⟨nofun, fun _ => rfl⟩
  | pullB | pullW => cases hx; cases hr; exact ⟨nofun, by simp⟩

/-- Settles O50: what the push leaves in memory and in `did_write`, with `S` set to the pointer answered. -/
theorem pushesThroughSMoveS : Obligations.PushesThroughSMoveS := by
  refine ⟨fun v s hm => ?_, fun w s hm => ?_⟩
  · obtain ⟨t, hx, hrsp, hrf⟩ : ∃ t, exec (.pushB s.rf.s (zext16 v)) s.showingS = .next t ∧
        t.rsp = some ⟨0#16, spDown s.rf.s, false⟩ ∧ t.rf = s.rf := ⟨_, exec_pushB _ _ _, rfl, rfl⟩
    rw [runPseudo_eq (p := .pushsB v) hx hrsp, hrf]
    exact ⟨rfl, (memRead_pushB_slot (t := t) hm hx).trans (loByte_zext16 v),
      fun a ha => memRead_exec_of_not_stored (s := s.showingS) (t := t) hx ha, exec_didWrite hx⟩
  · obtain ⟨t, hx, hrsp, hrf⟩ : ∃ t, exec (.pushW s.rf.s w) s.showingS = .next t ∧
        t.rsp = some ⟨0#16, spDown (spDown s.rf.s), false⟩ ∧ t.rf = s.rf :=
      ⟨_, exec_pushW _ _ _, rfl, rfl⟩
    rw [runPseudo_eq (p := .pushsW w) hx hrsp, hrf, ← spDown_spDown]
    exact ⟨rfl, memRead_pushW_high_slot (t := t) hm hx, memRead_pushW_low_slot (t := t) hm hx,
      fun a ha => memRead_exec_of_not_stored (s := s.showingS) (t := t) hx ha, exec_didWrite hx⟩

/-- Settles O51: the pulls change no part of the block, and then `S` takes the pointer answered. -/
theorem pullsThroughSMoveS : Obligations.PullsThroughSMoveS := by
  intro s
  rw [runPseudo_eq (p := .pullsB) (exec_pullB s.showingS s.rf.s) rfl,
    runPseudo_eq (p := .pullsW) (exec_pullW s.showingS s.rf.s) rfl, ← spUp_spUp]
  exact ⟨rfl, rfl, fun _ _ => rfl, rfl, rfl, joinBytes_toNat _ _, fun _ _ => rfl, rfl⟩

/-- Settles O52, from what the pushes and the pulls do: the pull finds the bytes where the push left them,
and its steps up cancel the steps down. -/
theorem pullThroughSUndoesPushThroughS : Obligations.PullThroughSUndoesPushThroughS := by
  obtain ⟨hpushB, hpushW⟩ := pushesThroughSMoveS
  refine fun s hm => ⟨fun v => ?_, fun w => ?_⟩
  · obtain ⟨hrf, hslot, -, -⟩ := hpushB v s hm
    obtain ⟨hrf', hdata, -⟩ := pullsThroughSMoveS (runPseudo (.pushsB v) s).1
    rw [hdata, hrf', hrf, BitVec.sub_add_cancel, hslot]
    exact ⟨rfl, rfl⟩
  · obtain ⟨hrf, hhi, hlo, -, -⟩ := hpushW w s hm
    obtain ⟨-, -, -, -, hrf', hdata, -⟩ := pullsThroughSMoveS (runPseudo (.pushsW w) s).1
    have hone : s.rf.s - 2#8 + 1#8 = s.rf.s - 1#8 := by bv_omega
    rw [hrf] at hdata hrf'
    rw [BitVec.sub_add_cancel] at hdata hrf'
    rw [hone, hhi, hlo, ← joinBytes_toNat, joinBytes_hiByte_loByte] at hdata
    exact ⟨BitVec.eq_of_toNat_eq hdata, hrf'⟩

/-- Settles O3: the tables of the codes, row by row, and the codes beyond their ends. -/
theorem selectCodesNameRegistersAndFlags : Obligations.SelectCodesNameRegistersAndFlags := by
  refine ⟨rfl, rfl, rfl, rfl, rfl, rfl, fun _ => regOfSel_eq_none.mpr, rfl, rfl, rfl, rfl, rfl, rfl, rfl, rfl,
    fun _ => flagOfSel_eq_none.mpr, fun sel f h => ?_⟩
  obtain rfl := selOfFlag_of_flagOfSel h
  cases f <;> exact ⟨rfl, rfl⟩

/-- Settles O38 by the second arm of `step`. -/
theorem stepRunsTheDecodedCommand : Obligations.StepRunsTheDecodedCommand := by
  intro s w rest i hcmds hd
  simp [step, hcmds, hd]

/-- Settles O54, line by line. -/
theorem writtenOutLinesAssemble : Obligations.WrittenOutLinesAssemble := by
  refine ⟨?_, ?_, ?_, ?_, ?_, ?_, ?_, ?_, ?_, ?_, ?_, ?_, ?_⟩
  all_goals decide

end Sys2Proof.Machine
end

section
/-! What the operations on the register file give: where a write of a register or of `P` is read, what it
leaves as it was, and when a write of a flag changes nothing (40_register_ops.md R64 to R68). -/

namespace Sys2Proof.Machine

variable {s t : State} {f : Flag} {p : Byte}

/-- A flag's `SEL` code is the number of its bit (30_encoding.md R53). -/
@[simp] theorem selOfFlag_toNat (f : Flag) : (selOfFlag f).toNat = flagBit f := by
  cases f <;> rfl

theorem sameBlock_withRsp (s : State) (r : Option Response) : SameBlock s { s with rsp := r } :=
  ⟨rfl, fun _ _ => rfl, rfl⟩

theorem sameRegistersExcept_writeReg (r : Reg) (data : Word) (s : State) :
    SameRegistersExcept [r] s (writeReg r data s) :=
  fun _ hq => readReg_writeReg_other data s (List.ne_of_not_mem_cons hq)

theorem sameRegistersExcept_setP (v : Byte) (s : State) : SameRegistersExcept [.p] s (setP v s) :=
  fun _ hq => readReg_setP_other v s (List.ne_of_not_mem_cons hq)

theorem SameRegistersExcept.withRsp {written : List Reg} (h : SameRegistersExcept written s t)
    (r : Option Response) : SameRegistersExcept written s { t with rsp := r } :=
  fun q hq => (readReg_withRsp t q r).trans (h q hq)

theorem forceUnused_loByte (data : Word) : forceUnused (loByte data) = loByte (data ||| 0x0020#16) := by
  simp [forceUnused, loByte, BitVec.extractLsb'_or]

theorem setFlag_eq_self (h : testFlag f p = true) : setFlag f p = p := by
  refine BitVec.eq_of_getLsbD_eq fun b hb => ?_
  rw [setFlag_getLsbD f p hb]
  by_cases hf : b = flagBit f
  · rw [hf, ← testFlag, h, Bool.or_true]
  · simp [hf]

theorem clearFlag_eq_self (hu : testFlag .u p = true) (h : f = .u ∨ testFlag f p = false) :
    clearFlag f p = p := by
  refine BitVec.eq_of_getLsbD_eq fun b hb => ?_
  rw [clearFlag_getLsbD f p hb]
  by_cases h5 : b = 5
  · rw [h5]
    exact hu.symm
  by_cases hf : b = flagBit f
  · obtain rfl | h := h
    · exact absurd hf h5
    · rw [hf] at h5 ⊢
      rw [← testFlag, h]
      simp [h5]
  · simp [h5, hf]

end Sys2Proof.Machine
end

section
/-! The words of the register-file commands: `SEL` names the command's register or flag, or none
(30_encoding.md R57). -/

namespace Sys2Proof

variable {w : CommandWord}

/-- Every `SEL` value is a register's code or above 0x5: either clause says what the decoder gives. -/
theorem withReg_spec (sel : BitVec 4) (k : Reg → Instr) :
    (∀ r, sel = selOfReg r → withReg sel k = .ok (k r)) ∧
    (0x5 < sel.toNat → withReg sel k = .error .badSel) :=
  ⟨fun r h => withReg_eq_ok.mpr ⟨r, h, rfl⟩, fun h => withReg_eq_error.mpr ⟨rfl, h⟩⟩

theorem withFlag_spec (sel : BitVec 4) (k : Flag → Instr) :
    (∀ f, sel = selOfFlag f → withFlag sel k = .ok (k f)) ∧
    (0x7 < sel.toNat → withFlag sel k = .error .badSel) :=
  ⟨fun f h => withFlag_eq_ok.mpr ⟨f, h, rfl⟩, fun h => withFlag_eq_error.mpr ⟨rfl, h⟩⟩

theorem decode_of_op_regRd (h : (Fields.ofWord w).op = 0x7#4) :
    decode w = withReg (Fields.ofWord w).sel .regRd := by
  simp [decode, decodeFields, h]

theorem decode_of_op_regWr (h : (Fields.ofWord w).op = 0x8#4) :
    decode w = withReg (Fields.ofWord w).sel fun r => .regWr r (Fields.ofWord w).data := by
  simp [decode, decodeFields, h]

theorem decode_of_op_flagTst (h : (Fields.ofWord w).op = 0x9#4) :
    decode w = withFlag (Fields.ofWord w).sel .flagTst := by
  simp [decode, decodeFields, h]

theorem decode_of_op_flagSet (h : (Fields.ofWord w).op = 0xA#4) :
    decode w = withFlag (Fields.ofWord w).sel .flagSet := by
  simp [decode, decodeFields, h]

theorem decode_of_op_flagClr (h : (Fields.ofWord w).op = 0xB#4) :
    decode w = withFlag (Fields.ofWord w).sel .flagClr := by
  simp [decode, decodeFields, h]

end Sys2Proof
end

section
/-! The diagnostic functions: `RfEq` is equality, and each field of the display string reads back as its
register, whatever follows it (40_register_ops.md R69 to R71). -/

namespace Sys2Proof.Machine

variable {f g : RegFile} {v w : Word} {a b : Byte} {cs ds : List Char}

theorem rfEq_iff : rfEq f g = true ↔
    f.pc = g.pc ∧ f.a = g.a ∧ f.x = g.x ∧ f.y = g.y ∧ f.s = g.s ∧ f.p = g.p := by
  simp only [rfEq, Bool.and_eq_true, beq_iff_eq, and_assoc]

theorem rfEq_iff_eq : rfEq f g = true ↔ f = g := by
  rw [rfEq_iff]
  cases f
  cases g
  rw [RegFile.mk.injEq]

theorem rfNe_iff : rfNe f g = true ↔ ¬ rfEq f g = true := by
  rw [rfNe, Bool.not_eq_true', Bool.not_eq_true]

theorem takeHex_hexWord_end (w : Word) : takeHex 4 0 (hexWord w) = some (w.toNat, []) := by
  simpa using takeHex_hexWord w []

theorem takeHex_hexByte_end (b : Byte) : takeHex 2 0 (hexByte b) = some (b.toNat, []) := by
  simpa using takeHex_hexByte b []

theorem hexWord_append_inj : hexWord v ++ cs = hexWord w ++ ds ↔ v = w ∧ cs = ds := by
  refine ⟨fun h => ?_, fun ⟨hv, hc⟩ => by rw [hv, hc]⟩
  simpa [takeWord_hexWord] using congrArg takeWord h

theorem hexByte_append_inj : hexByte a ++ cs = hexByte b ++ ds ↔ a = b ∧ cs = ds := by
  refine ⟨fun h => ?_, fun ⟨ha, hc⟩ => by rw [ha, hc]⟩
  simpa [takeByte_hexByte] using congrArg takeByte h

theorem hexByte_inj : hexByte a = hexByte b ↔ a = b := by
  simpa using hexByte_append_inj (a := a) (b := b) (cs := []) (ds := [])

/-- Field by field: the labels are the same, and the digits of a field read back as its register. By `delta`,
since the equation of `rfFormatChars` would evaluate the labels. -/
theorem rfFormatChars_eq_iff : rfFormatChars f = rfFormatChars g ↔
    f.pc = g.pc ∧ f.a = g.a ∧ f.x = g.x ∧ f.y = g.y ∧ f.s = g.s ∧ f.p = g.p := by
  delta rfFormatChars
  simp only [List.append_assoc, List.append_cancel_left_eq, hexWord_append_inj,
    hexByte_append_inj, hexByte_inj]

theorem rfFormat_eq_iff : rfFormat f = rfFormat g ↔ rfFormatChars f = rfFormatChars g :=
  String.ofList_inj

end Sys2Proof.Machine
end

section
/-! The statements about the register-file commands and the diagnostic functions (family
40_register_ops.md). -/

namespace Sys2Proof.Machine

/-- Settles O10: the answer is the register, whose bit 5 the invariant gives for `P`. -/
theorem regRdAnswersTheRegister : Obligations.RegRdAnswersTheRegister := by
  refine ⟨fun r s => ⟨_, exec_regRd s r, ?_, sameBlock_withRsp s _, rfl⟩, fun s hs => ?_, fun w hop => ?_⟩
  · cases r <;> rfl
  · obtain ⟨-, hu⟩ := hs
    exact ⟨_, _, exec_regRd s .p, rfl, (zext16_getLsbD s.rf.p 5).trans hu⟩
  · rw [decode_of_op_regRd hop]
    exact withReg_spec _ _

/-- Settles O11: `writeReg` is read back in its register and leaves the others; `P` takes the low byte with
bit 5 forced. -/
theorem regWrWritesTheRegister : Obligations.RegWrWritesTheRegister := by
  refine ⟨fun r data s => ⟨_, exec_regWr s data r, ?_, ?_, (sameRegistersExcept_writeReg r data s).withRsp _,
    fun a _ => memRead_writeReg a r data s, writeReg_didWrite s r data, writeReg_cmds s r data, rfl⟩,
    fun w hop => ?_⟩
  · cases r with
    | pc => rfl
    | p => exact (congrArg zext16 (forceUnused_loByte data)).trans (zext16_loByte _)
    | a | x | y | s => exact zext16_loByte data
  · rintro rfl b hb
    refine (forceUnused_getLsbD (loByte data) hb).trans ?_
    simp [hb]
  · rw [decode_of_op_regWr hop]
    exact withReg_spec _ _

/-- Settles O12: `SEL` is the number of the flag's bit, and the invariant gives that of `U`. -/
theorem flagTstAnswersTheFlag : Obligations.FlagTstAnswersTheFlag := by
  refine ⟨fun f s => ⟨_, exec_flagTst s f, ?_, sameBlock_withRsp s _, rfl⟩, fun s hs => ?_, fun w hop => ?_⟩
  · rw [selOfFlag_toNat]
    rfl
  · obtain ⟨-, hu⟩ := hs
    refine ⟨_, exec_flagTst s .u, ?_⟩
    rw [hu]
    rfl
  · rw [decode_of_op_flagTst hop]
    exact withFlag_spec _ _

/-- Settles O13, bit by bit of the byte that `setFlag` gives. -/
theorem flagSetSetsTheFlag : Obligations.FlagSetSetsTheFlag := by
  refine ⟨fun f s => ⟨_, exec_flagSet s f, fun b hb => ?_, fun hset => ?_,
    (sameRegistersExcept_setP _ s).withRsp _, fun _ _ => rfl, rfl, rfl, rfl⟩, fun w hop => ?_⟩
  · refine (setFlag_getLsbD f s.rf.p hb).trans ?_
    simp
  · rw [selOfFlag_toNat] at hset
    rw [setP_rf, setFlag_eq_self hset]
  · rw [decode_of_op_flagSet hop]
    exact withFlag_spec _ _

/-- Settles O14, bit by bit of the byte that `clearFlag` gives. -/
theorem flagClrClearsTheFlag : Obligations.FlagClrClearsTheFlag := by
  refine ⟨fun f s => ⟨_, exec_flagClr s f, fun b hb => ?_, fun hs hclear => ?_,
    (sameRegistersExcept_setP _ s).withRsp _, fun _ _ => rfl, rfl, rfl, rfl⟩, fun w hop => ?_⟩
  · refine (clearFlag_getLsbD f s.rf.p hb).trans ?_
    simp
  · obtain ⟨-, hu⟩ := hs
    rw [selOfFlag_toNat] at hclear
    rw [setP_rf, clearFlag_eq_self hu hclear]
  · rw [decode_of_op_flagClr hop]
    exact withFlag_spec _ _

/-- Settles O48: the fields are the registers' digits, which read back as the registers. -/
theorem rfFormatFollowsTheTemplate : Obligations.RfFormatFollowsTheTemplate :=
  ⟨fun f => ⟨hexWord f.pc, hexByte f.a, hexByte f.x, hexByte f.y, hexByte f.s, hexByte f.p, rfl,
    takeHex_hexWord_end f.pc, takeHex_hexByte_end f.a, takeHex_hexByte_end f.x, takeHex_hexByte_end f.y,
    takeHex_hexByte_end f.s, takeHex_hexByte_end f.p⟩, by decide⟩

/-- Settles O49: both sides say that the six registers are equal. -/
theorem rfFormatTellsRegisterFilesApart : Obligations.RfFormatTellsRegisterFilesApart := by
  intro f g
  rw [rfFormat_eq_iff, rfFormatChars_eq_iff, rfEq_iff]

/-- Settles O46, comparison by comparison. -/
theorem rfEqComparesTheSixRegisters : Obligations.RfEqComparesTheSixRegisters :=
  fun _ _ => rfEq_iff

/-- Settles O47: `RfEq` is equality, so its negation is difference. -/
theorem rfNeIsTheNegationOfRfEq : Obligations.RfNeIsTheNegationOfRfEq :=
  fun _ _ => ⟨rfNe_iff, rfNe_iff.trans (not_congr rfEq_iff_eq)⟩

end Sys2Proof.Machine
end

section
/-! The words of the memory commands, whose `OP` alone names the command (30_encoding.md R51). -/

namespace Sys2Proof

variable {w : CommandWord}

theorem decode_of_op_memRd (h : (Fields.ofWord w).op = 0x1#4) :
    decode w = .ok (.memRd (Fields.ofWord w).addr) := by
  simp [decode, decodeFields, h]

theorem decode_of_op_memWr (h : (Fields.ofWord w).op = 0x2#4) :
    decode w = .ok (.memWr (Fields.ofWord w).addr (Fields.ofWord w).data) := by
  simp [decode, decodeFields, h]

theorem decode_of_op_diagRd (h : (Fields.ofWord w).op = 0xC#4) : decode w = .ok .diagRd := by
  simp [decode, decodeFields, h]

end Sys2Proof
end

section
/-! The statements about the memory commands (family 41_memory_ops.md). -/

namespace Sys2Proof.Machine

/-- Settles O15: the answer is the stored byte, and ROM at power-on holds the fill byte. -/
theorem memRdAnswersTheByte : Obligations.MemRdAnswersTheByte := by
  refine ⟨fun a s => ⟨_, exec_memRd s a, rfl, sameBlock_withRsp s _, rfl⟩,
    fun a ha => ⟨_, exec_memRd _ a, ?_⟩, fun _ => decode_of_op_memRd⟩
  rw [memRead_reset, if_neg (Nat.not_lt.mpr ha)]
  rfl

/-- Settles O16: the address is the one store of `MEM_WR`, and its byte is the low byte of the data. -/
theorem memWrStoresTheByte : Obligations.MemWrStoresTheByte := by
  refine ⟨fun a data s hm => ?_, fun _ => decode_of_op_memWr⟩
  have hx := exec_memWr s a data
  refine ⟨_, hx, ?_, fun b hb => memRead_memWr_other hx (List.ne_of_not_mem_cons hb), ?_, rfl, rfl, rfl⟩
  · rw [memRead_memWr_same hm hx]
    exact zext16_loByte data
  · exact (exec_didWrite hx).trans (Bool.or_true _)

/-- Settles O17: a run leaves `did_write` at 1 where it was 1, since it only adds to it what the commands
set. -/
theorem diagRdAnswersDidWrite : Obligations.DiagRdAnswersDidWrite := by
  refine ⟨fun s => ⟨_, exec_diagRd s, rfl, sameBlock_withRsp s _, rfl⟩, fun is s hs => ?_,
    fun _ => decode_of_op_diagRd⟩
  obtain ⟨t, hrun, hdw⟩ := didWriteRecordsTheRun is s
  have ht : t.didWrite = true := by rw [hdw, hs, Bool.true_or]
  refine ⟨t, _, hrun, exec_diagRd t, ?_⟩
  rw [ht]
  rfl

end Sys2Proof.Machine
end

section
/-! The words of the stack commands, whose `OP` alone names the command (30_encoding.md R51). -/

namespace Sys2Proof

variable {w : CommandWord}

theorem decode_of_op_pushB (h : (Fields.ofWord w).op = 0x3#4) :
    decode w = .ok (.pushB (Fields.ofWord w).spv (Fields.ofWord w).data) := by
  simp [decode, decodeFields, h]

theorem decode_of_op_pushW (h : (Fields.ofWord w).op = 0x4#4) :
    decode w = .ok (.pushW (Fields.ofWord w).spv (Fields.ofWord w).data) := by
  simp [decode, decodeFields, h]

theorem decode_of_op_pullB (h : (Fields.ofWord w).op = 0x5#4) :
    decode w = .ok (.pullB (Fields.ofWord w).spv) := by
  simp [decode, decodeFields, h]

theorem decode_of_op_pullW (h : (Fields.ofWord w).op = 0x6#4) :
    decode w = .ok (.pullW (Fields.ofWord w).spv) := by
  simp [decode, decodeFields, h]

end Sys2Proof
end

section
/-! Pointers and slots by their number: two steps of a pointer modulo 256, and the slot at 0x0100 + the
pointer (42_stack_engine.md R75). -/

namespace Sys2Proof.Machine

theorem spDown_spDown_toNat (sp : Byte) : (spDown (spDown sp)).toNat = (sp.toNat + 254) % 256 := by
  rw [spDown_toNat, spDown_toNat]
  omega

theorem spUp_spUp_toNat (sp : Byte) : (spUp (spUp sp)).toNat = (sp.toNat + 2) % 256 := by
  rw [spUp_toNat, spUp_toNat]
  omega

theorem eq_stackAddr_of_toNat_eq {a : Addr} {p : Byte} (h : a.toNat = 0x0100 + p.toNat) : a = stackAddr p :=
  BitVec.eq_of_toNat_eq (h.trans (stackAddr_toNat p).symm)

theorem ofNat_slot_number (p : Byte) : BitVec.ofNat 16 (0x0100 + p.toNat) = stackAddr p := by
  rw [← stackAddr_toNat, BitVec.ofNat_toNat, BitVec.setWidth_eq]

theorem ofNat_pointer_number (p : Byte) : BitVec.ofNat 8 p.toNat = p := by
  rw [BitVec.ofNat_toNat, BitVec.setWidth_eq]

end Sys2Proof.Machine
end

section
/-! The statements about the stack engine (family 42_stack_engine.md). -/

namespace Sys2Proof.Machine

/-- Settles O18: a byte push is one store to its slot and a rise of `did_write`, and a byte pull reads the
slot of the pointer stepped up. -/
theorem bytePushAndPullStepThePointer : Obligations.BytePushAndPullStepThePointer := by
  refine ⟨stackAddr_toNat, fun sets sp v s hm => ⟨spDown_toNat sp, memRead_memWrite_same _ v hm,
    fun a ha => memRead_memWrite_other v (List.ne_of_not_mem_cons ha), rfl, rfl⟩,
    fun sp s => ⟨spUp_toNat sp, fun a ha => ?_⟩⟩
  rw [← spUp_toNat] at ha
  rw [eq_stackAddr_of_toNat_eq ha, pullByte_eq]

/-- Settles O19: the slot is the one store of `PUSH_B`, and its byte is the low byte of the data. -/
theorem pushByteStoresAndAnswersThePointer : Obligations.PushByteStoresAndAnswersThePointer := by
  refine ⟨fun sp data s hm => ?_, fun _ => decode_of_op_pushB⟩
  have hx := exec_pushB s sp data
  rw [← spDown_toNat, ofNat_pointer_number]
  exact ⟨_, hx, (congrArg zext16 (memRead_pushB_slot hm hx)).trans (zext16_loByte data),
    fun _ => memRead_exec_of_not_stored hx, exec_didWrite hx, rfl, rfl, rfl⟩

/-- Settles O20: the two slots are the two stores of `PUSH_W`, and they differ, so both bytes stay. -/
theorem pushWordStoresHighByteFirst : Obligations.PushWordStoresHighByteFirst := by
  refine ⟨fun sp data s hm => ?_, fun _ => decode_of_op_pushW⟩
  have hx := exec_pushW s sp data
  rw [← spDown_spDown_toNat, ofNat_pointer_number, ← spDown_toNat, ofNat_slot_number]
  exact ⟨_, hx, (congrArg zext16 (memRead_pushW_high_slot hm hx)).trans (zext16_hiByte data),
    (congrArg zext16 (memRead_pushW_low_slot hm hx)).trans (zext16_loByte data),
    fun _ => memRead_exec_of_not_stored hx, exec_didWrite hx, rfl, rfl, rfl⟩

/-- Settles O21: `PULL_B` changes the response port alone, and its byte is in the slot one above `SPV`. -/
theorem pullByteAnswersTheSlotAbove : Obligations.PullByteAnswersTheSlotAbove := by
  refine ⟨fun sp s => ?_, fun _ => decode_of_op_pullB⟩
  rw [← spUp_toNat, ofNat_slot_number, ofNat_pointer_number]
  exact ⟨_, exec_pullB s sp, rfl, sameBlock_withRsp s _, rfl⟩

/-- Settles O22: `PULL_W` changes the response port alone, and joins the bytes of the two slots above
`SPV`. -/
theorem pullWordReadsLowByteFirst : Obligations.PullWordReadsLowByteFirst := by
  refine ⟨fun sp s => ?_, fun _ => decode_of_op_pullW⟩
  rw [← spUp_toNat, ← spUp_spUp_toNat, ofNat_slot_number, ofNat_slot_number, ofNat_pointer_number]
  exact ⟨_, _, exec_pullW s sp, rfl, joinBytes_toNat _ _, sameBlock_withRsp s _, rfl⟩

/-- Settles O23: the pull's steps up cancel the push's steps down, so it reads the slots that the push
stored. -/
theorem pullUndoesPush : Obligations.PullUndoesPush := by
  refine ⟨fun sp v s hm => ?_, fun sp w s hm => ?_⟩
  · have hx := exec_pushB s sp (v.setWidth 16)
    refine ⟨_, _, _, hx, rfl, exec_pullB _ _, ?_, fun _ _ => rfl⟩
    rw [spUp_spDown, memRead_pushB_slot hm hx, loByte_setWidth]
    rfl
  · have hx := exec_pushW s sp w
    refine ⟨_, _, _, hx, rfl, exec_pullW _ _, ?_, fun _ _ => rfl⟩
    simp only [spUp_spDown]
    rw [memRead_pushW_high_slot hm hx, memRead_pushW_low_slot hm hx, joinBytes_hiByte_loByte]

/-- Settles O26: what a stack command does to the state, command by command, does not mention the register
file. -/
theorem stackCommandsIgnoreTheRegisterFile : Obligations.StackCommandsIgnoreTheRegisterFile := by
  intro i s f hi
  cases i with
  | pushB sp data => exact ⟨_, exec_pushB s sp data, rfl, exec_pushB _ sp data⟩
  | pushW sp data => exact ⟨_, exec_pushW s sp data, rfl, exec_pushW _ sp data⟩
  | pullB sp => exact ⟨_, exec_pullB s sp, rfl, exec_pullB _ sp⟩
  | pullW sp => exact ⟨_, exec_pullW s sp, rfl, exec_pullW _ sp⟩
  | memRd | memWr | regRd | regWr | flagTst | flagSet | flagClr | diagRd => cases hi

end Sys2Proof.Machine
end

section
/-! What one step and a run do to the pending words: a step takes the first word, and a run is stopped by the
first illegal word it takes and by nothing else (60_exceptions.md R83 to R85; logs 1, 2). -/

namespace Sys2Proof.Machine

variable {s t : State} {w : CommandWord} {ws : List CommandWord} {i : Instr} {c : Cause}

theorem firstCause_cons_of_decode_ok (hd : decode w = .ok i) : firstCause (w :: ws) = firstCause ws := by
  simp [firstCause, hd]

theorem firstCause_cons_of_decode_error (hd : decode w = .error c) : firstCause (w :: ws) = some c := by
  simp [firstCause, hd]

theorem firstCause_eq_none_iff : firstCause ws = none ↔ ∀ w ∈ ws, LegalWord w := by
  induction ws with
  | nil => simp [firstCause]
  | cons w ws ih =>
    cases hd : decode w with
    | ok i => simp [firstCause_cons_of_decode_ok hd, ih, legalWord_of_decode_ok hd]
    | error c => simp [firstCause_cons_of_decode_error hd, not_legalWord_of_decode_error hd]

/-- Everything a step can do to the pending words: it takes the first one, if any, and the first illegal word
is still to come; or the first one is illegal. -/
theorem step_next_or_fault (s : State) :
    (∃ t, step s = .next t ∧ t.cmds = s.cmds.tail ∧
      ∀ k, firstCause (s.cmds.take (k + 1)) = firstCause (t.cmds.take k)) ∨
    (∃ c, step s = .fault (.illegalCommand c) ∧ ∀ k, firstCause (s.cmds.take (k + 1)) = some c) := by
  obtain ⟨hnil, hidle⟩ | ⟨w, rest, i, hcons, hd, hexec⟩ | ⟨w, rest, c, hcons, hd, hfault⟩ := step_cases s
  · exact .inl ⟨s, hidle, by simp [hnil], by simp [hnil]⟩
  · obtain ⟨t, -, hx, -, -⟩ := exec_completes i { s with cmds := rest }
    have hcmds : t.cmds = rest := exec_cmds hx
    refine .inl ⟨t, hexec.trans hx, by simp [hcons, hcmds], fun k => ?_⟩
    rw [hcons, List.take_succ_cons, firstCause_cons_of_decode_ok hd, hcmds]
  · refine .inr ⟨c, hfault, fun k => ?_⟩
    rw [hcons, List.take_succ_cons, firstCause_cons_of_decode_error hd]

/-- Everything a run can do: it takes its words, none of them illegal; or it faults with the cause of the
first illegal one. -/
theorem run_next_or_fault (k : Nat) (s : State) :
    (∃ t, run k s = .next t ∧ t.cmds = s.cmds.drop k ∧ firstCause (s.cmds.take k) = none) ∨
    (∃ c, run k s = .fault (.illegalCommand c) ∧ firstCause (s.cmds.take k) = some c) := by
  induction k generalizing s with
  | zero => exact .inl ⟨s, rfl, rfl, rfl⟩
  | succ k ih =>
    obtain ⟨t, hstep, hcmds, hcause⟩ | ⟨c, hstep, hcause⟩ := step_next_or_fault s
    · rw [run_succ_of_next hstep, hcause, ← List.drop_tail, ← hcmds]
      exact ih t
    · exact .inr ⟨c, run_succ_of_fault hstep, hcause k⟩

theorem run_of_legal (k : Nat) (h : ∀ w ∈ s.cmds, LegalWord w) :
    ∃ t, run k s = .next t ∧ t.cmds = s.cmds.drop k := by
  obtain ⟨t, hrun, hcmds, -⟩ | ⟨c, -, hcause⟩ := run_next_or_fault k s
  · exact ⟨t, hrun, hcmds⟩
  · rw [firstCause_eq_none_iff.mpr fun w hw => h w (List.mem_of_mem_take hw)] at hcause
    cases hcause

theorem run_of_cmds_nil (k : Nat) (h : s.cmds = []) : run k s = .next s := by
  induction k with
  | zero => rfl
  | succ k ih => rw [run_succ_of_next (step_of_cmds_nil h), ih]

theorem run_add_of_next {j k : Nat} (h : run j s = .next t) : run (j + k) s = run k t := by
  induction j generalizing s with
  | zero => cases h; rw [Nat.zero_add]
  | succ j ih =>
    rw [Nat.succ_add]
    cases hstep : step s with
    | next u => rw [run_succ_of_next hstep] at h ⊢; exact ih h
    | fault e => rw [run_succ_of_fault hstep] at h; cases h
    | refused e => rw [run_succ_of_refused hstep] at h; cases h

end Sys2Proof.Machine
end

section
/-! The statements about faults and runs (family 60_exceptions.md). -/

namespace Sys2Proof.Machine

/-- Settles O43: the run answers a next state or faults, and in each case its words say which. -/
theorem runsStopExactlyAtAnIllegalWord : Obligations.RunsStopExactlyAtAnIllegalWord := by
  intro k s
  obtain ⟨t, hrun, -, hcause⟩ | ⟨c, hrun, hcause⟩ := run_next_or_fault k s
  · rw [hrun, hcause]
    exact ⟨by simp, by simp, nofun⟩
  · rw [hrun, hcause]
    exact ⟨by simp, by simp, nofun⟩

/-- Settles O42: up to the last word, by what a run takes; beyond it, no word is left and the state stays. -/
theorem legalRunsNeverFail : Obligations.LegalRunsNeverFail := by
  intro k s hlegal
  obtain hk | hk := Nat.le_total k s.cmds.length
  · obtain ⟨t, hrun, hcmds⟩ := run_of_legal k hlegal
    rw [Nat.min_eq_left hk, Nat.sub_eq_zero_of_le hk]
    exact ⟨t, hrun, hrun, hcmds, rfl⟩
  · obtain ⟨t, hrun, hcmds⟩ := run_of_legal s.cmds.length hlegal
    rw [List.drop_length] at hcmds
    have hidle : run (k - s.cmds.length) t = .next t := run_of_cmds_nil _ hcmds
    have hall : run k s = .next t := by
      rw [← Nat.add_sub_cancel' hk, run_add_of_next hrun, hidle]
    rw [Nat.min_eq_right hk, List.drop_of_length_le hk]
    exact ⟨t, hall, hrun, hcmds, hidle⟩

/-- Settles O41: a legal word is one that decodes, and every command completes. -/
theorem everyLegalCommandCompletes : Obligations.EveryLegalCommandCompletes := by
  intro w s hw
  obtain ⟨i, hd⟩ := legalWord_iff_decode_ok.mp hw
  obtain ⟨t, -, hx, -, -⟩ := exec_completes i s
  exact ⟨i, t, hd, hx⟩

end Sys2Proof.Machine
end

section
/-! Two byte pushes at one pointer (70_reset_and_hazards.md R97). -/

namespace Sys2Proof.Machine

variable {s t u r : State} {sp : Byte} {d d' : Word} {a : Addr}

theorem memRead_pushB_other (h : exec (.pushB sp d) s = .next t) (ha : a ≠ stackAddr sp) :
    memRead a t = memRead a s :=
  memRead_exec_of_not_stored h (by simpa [byteWrites] using ha)

/-- The second push stores over the first one's slot, and the first stored nowhere else. -/
theorem memRead_pushB_pushB (a : Addr) (hm : s.mem.wf = true) (ht : exec (.pushB sp d) s = .next t)
    (hu : exec (.pushB sp d') t = .next u) (hr : exec (.pushB sp d') s = .next r) :
    memRead a u = memRead a r := by
  by_cases ha : a = stackAddr sp
  · subst ha
    rw [memRead_pushB_slot (exec_keeps_wf hm ht) hu, memRead_pushB_slot hm hr]
  · rw [memRead_pushB_other hu ha, memRead_pushB_other ht ha, memRead_pushB_other hr ha]

end Sys2Proof.Machine
end

section
/-! The statements about power-on and hazards (family 70_reset_and_hazards.md). -/

namespace Sys2Proof.Machine

/-- Settles O27: the second push overwrites the slot, and its answer depends on the pointer alone. -/
theorem pushAtTheSamePointerOverwrites : Obligations.PushAtTheSamePointerOverwrites := by
  intro sp v v' s hm
  have ht := exec_pushB s sp (v.setWidth 16)
  exact ⟨_, _, _, ht, exec_pushB _ sp _, exec_pushB s sp _,
    fun a => memRead_pushB_pushB a hm ht (exec_pushB _ sp _) (exec_pushB s sp _), rfl, rfl⟩

/-- Settles O35: the memory at power-on is canonical, and `P` is 0x20 there. -/
theorem invariantAtPowerOn : Obligations.InvariantAtPowerOn :=
  ⟨wf_reset, rfl⟩

end Sys2Proof.Machine
end

section
/-! The statement about the words written out in the spec's vectors (family other). -/

namespace Sys2Proof.Machine

/-- Settles O1: eleven of the words are encodings, the twelfth has `OP` 0xC over bits that `DIAG_RD` does not
read, and the last three lie outside the table of `OP` or of `SEL`. -/
theorem writtenOutWordsDecode : Obligations.WrittenOutWordsDecode :=
  ⟨decode_encode (.memRd 0xFFFE#16), decode_encode (.memWr 0x0010#16 0xABCD#16),
    decode_encode (.pushB 0xFD#8 0xAB42#16), decode_encode (.pushW 0xFD#8 0x1234#16),
    decode_encode (.pullB 0xFC#8), decode_encode (.pullW 0xFB#8), decode_encode (.regRd .s),
    decode_encode (.regWr .pc 0xC000#16), decode_encode (.flagTst .u), decode_encode (.flagSet .n),
    decode_encode (.flagClr .i), decode_of_op_diagRd rfl, decodeFields_eq_badOp_iff.mpr (by decide),
    decodeFields_eq_badSel_iff.mpr (by decide), decodeFields_eq_badSel_iff.mpr (by decide)⟩

end Sys2Proof.Machine
end
